-- ==== Sys2Proof/Word.lean ====
section
/-! DEFINITION. The words of HKX: bytes, bus words, port offsets and byte strings (spec/00_scope.md R10). -/

namespace Sys2Proof

/-- A byte: an unsigned 8-bit value (R10). -/
abbrev Byte := BitVec 8

/-- A bus word or a register value: unsigned, 32 bits (R10, R60). -/
abbrev Word := BitVec 32

/-- A byte offset from the base of the host port: 16 bits (R60). -/
abbrev Addr := BitVec 16

/-- `Bytes`, the finite byte strings, byte 0 first (R10). -/
abbrev Bytes := List Byte

/-- `Bytes32`, the byte strings of length exactly 32 (R10). -/
abbrev Bytes32 := Vector Byte 32

end Sys2Proof
end

