-- ==== Sys2Proof/Config.lean ====
section
/-! DEFINITION. What an implementation of HKX fixes: the slot capacities (spec/00_scope.md R6 to R8) and
the HMAC function (R11, R12).  R42: "The configuration (MAX_A, MAX_B, MAX_C, HMAC) is a parameter of
the step relation, not state"; the model carries it as plain data beside the device's record, so that
a statement about every state is a statement about every configuration (log entry 1). -/

namespace Sys2Proof

/-- The operand slots (R42). -/
inductive Slot where
  | a
  | b
  | c
deriving DecidableEq, Repr

/-- Which HMAC function the configuration names (R11). -/
inductive HmacChoice where
  /-- The intended instance, RFC 2104 HMAC with SHA-256 (R13). -/
  | rfc2104
  /-- Some other function of which only R12 is known; the number tells several apart. -/
  | other (n : Nat)
deriving DecidableEq, Repr

/-- The configuration: MAX_A, MAX_B, MAX_C and HMAC (R42). -/
structure Config where
  maxA : Nat
  maxB : Nat
  maxC : Nat
  hmac : HmacChoice
deriving DecidableEq, Repr

/-- A free value: HMAC functions about which R12 alone holds ("total on every key length and every
message length", "exactly 32 bytes", deterministic).  It has no body, so nothing can evaluate it. -/
opaque Config.freeHmac : Nat → Bytes → Bytes → Bytes32

/-- The default capacities of R6 to R8 and the intended HMAC of R13. -/
def Config.standard : Config := ⟨1024, 128, 128, .rfc2104⟩

/-- `cap(S)` of R63. -/
def Config.cap (c : Config) : Slot → Nat
  | .a => c.maxA
  | .b => c.maxB
  | .c => c.maxC

end Sys2Proof
end

