-- ==== Sys2Proof/Syntax.lean ====
section
/-! DEFINITION. The commands of HKX, one constructor for each row of spec/opcode_table.json (R96, R99).
The byte-string operands are no part of a command: they are the slots A, B and C (R95). -/

namespace Sys2Proof

/-- A command of the opcode table.  ARG is the 8-bit unsigned operand of R93. -/
inductive Instr where
  /-- `NOP` (R111). -/
  | nop
  /-- `DERIVE.DEF`, written `DERIVE`: the chunk count is omitted (R137). -/
  | deriveDef
  /-- `DERIVE #n`: an explicit chunk count (R136). -/
  | derive (arg : Byte)
  /-- `VERIFY #n`: the length in bytes (R157). -/
  | verify (arg : Byte)
deriving DecidableEq, Repr

end Sys2Proof
end

