-- ==== Sys2Proof/WellFormed.lean ====
section
/-! DEFINITION. Well-formedness: the constraints that spec/00_scope.md R6 to R8 put on a configuration.
A command needs no check of its own: R99 lets ARG be any value from 0 to 255, and the type of the
operand holds exactly those. -/

namespace Sys2Proof

/-- Every command is well formed: "`n`, with 0 ≤ n ≤ 255" (R99) is the operand's type. -/
def Instr.wf : Instr → Bool
  | .nop => true
  | .deriveDef => true
  | .derive arg => decide (arg.toNat ≤ 255)
  | .verify arg => decide (arg.toNat ≤ 255)

/-- A capacity is "a multiple of 4" between its bounds (R6 to R8). -/
abbrev capacityOk (lo hi cap : Nat) : Prop := cap % 4 = 0 ∧ lo ≤ cap ∧ cap ≤ hi

/-- The constraints on the three capacities (R6, R7, R8). -/
abbrev Config.wf (c : Config) : Prop :=
  capacityOk 4 32768 c.maxA ∧ capacityOk 32 4096 c.maxB ∧ capacityOk 32 4096 c.maxC

end Sys2Proof
end

