-- ==== Sys2Proof/Decode.lean ====
section
/-! DEFINITION. Decoding (spec/30_encoding.md): the command word of R92 and R96 with its encoder (R99),
and the port offset of R62 and R72 with its encoder.  Both decoders are total. -/

namespace Sys2Proof

/-! ## The command word -/

/-- OP, bits 7:0 (R92). -/
def fieldOp (w : Word) : Byte := w.extractLsb' 0 8

/-- ARG, bits 15:8, unsigned (R92, R93). -/
def fieldArg (w : Word) : Byte := w.extractLsb' 8 8

/-- G, bit 16 (R92, R94). -/
def fieldG (w : Word) : Bool := w.getLsbD 16

/-- RSV, bits 31:17, which must be 0 (R92). -/
def fieldRsv (w : Word) : BitVec 15 := w.extractLsb' 17 15

/-- Why a word is ILLEGAL: the classes that R97 lists. -/
inductive IllegalWord where
  /-- A bit of RSV is set. -/
  | reservedBits
  /-- OP is 0x03 to 0xFF. -/
  | reservedOp
  /-- NOP with a nonzero ARG or with G = 1. -/
  | nopWithOperand
  /-- DERIVE with G = 0 and a nonzero ARG. -/
  | deriveArgNotGiven
  /-- VERIFY with G = 0. -/
  | verifyNotGiven
deriving DecidableEq, Repr

/-- The class of R97 an ILLEGAL word falls in; a word in two classes has the first of them. -/
def illegalWord (w : Word) : IllegalWord :=
  if fieldRsv w ≠ 0#15 then .reservedBits
  else if fieldOp w = 0x00#8 then .nopWithOperand
  else if fieldOp w = 0x01#8 then .deriveArgNotGiven
  else if fieldOp w = 0x02#8 then .verifyNotGiven
  else .reservedOp

/-- `DecodeCmd(w)` of R96. -/
def decode (w : Word) : Except IllegalWord Instr :=
  if w = 0x00000000#32 then .ok .nop
  else if w = 0x00000001#32 then .ok .deriveDef
  else if fieldRsv w = 0#15 ∧ fieldG w = true ∧ fieldOp w = 0x01#8 then .ok (.derive (fieldArg w))
  else if fieldRsv w = 0#15 ∧ fieldG w = true ∧ fieldOp w = 0x02#8 then .ok (.verify (fieldArg w))
  else .error (illegalWord w)

/-- The word of a command (R99): `DERIVE #n` is `0x00010001 OR (n << 8)`, and so on. -/
def encode : Instr → Word
  | .nop => 0x00000000#32
  | .deriveDef => 0x00000001#32
  | .derive arg => 0x00010001#32 ||| (arg.setWidth 32 <<< (8 : Nat))
  | .verify arg => 0x00010002#32 ||| (arg.setWidth 32 <<< (8 : Nat))

/-- A row of the match and mask table of R96. -/
structure OpcodeRow where
  mnemonic : String
  pattern : Word
  mask : Word
deriving DecidableEq, Repr

/-- The table of R96. -/
def opcodeRows : List OpcodeRow :=
  [⟨"NOP", 0x00000000#32, 0xFFFFFFFF#32⟩,
   ⟨"DERIVE.DEF", 0x00000001#32, 0xFFFFFFFF#32⟩,
   ⟨"DERIVE", 0x00010001#32, 0xFFFF00FF#32⟩,
   ⟨"VERIFY", 0x00010002#32, 0xFFFF00FF#32⟩]

/-- "A word selecting a row when `(w AND mask) = match`" (R96). -/
def OpcodeRow.selects (r : OpcodeRow) (w : Word) : Bool := w &&& r.mask == r.pattern

/-- The mnemonic of a command in the opcode table. -/
def Instr.mnemonic : Instr → String
  | .nop => "NOP"
  | .deriveDef => "DERIVE.DEF"
  | .derive _ => "DERIVE"
  | .verify _ => "VERIFY"

/-- The command in the table's numbering of bits: a command is "one whole 32-bit write" (R90), so
`w` is that word, the bits from `nbits` up being 0. -/
def decodeTableWord (nbits w : Nat) : Option Instr :=
  if nbits ≤ 32 then
    match decode (BitVec.ofNat 32 (w % 2 ^ nbits)) with
    | .ok i => some i
    | .error _ => none
  else none

/-! ## The port offset -/

/-- The control registers of R22. -/
inductive Reg where
  | id
  | cap (s : Slot)
  | cmd
  | status
  | irqEn
  | len (s : Slot)
deriving DecidableEq, Repr

/-- What an offset selects (R62, R72): a register, byte `o` of OUT, byte `o` of a slot's window region
(mapped or not), or nothing. -/
inductive Region where
  | reg (r : Reg)
  | out (o : Nat)
  | win (s : Slot) (o : Nat)
  | reserved
deriving DecidableEq, Repr

/-- `WBASE(S)` of R63. -/
def winBase : Slot → Nat
  | .a => 0x8000
  | .b => 0x1000
  | .c => 0x2000

/-- The offset of OUT's byte 0 (R64). -/
def outBase : Nat := 0x0100

/-- The number of bytes of OUT (R38). -/
def outSize : Nat := 96

/-- The offset of a control register (R22). -/
def regOffset : Reg → Nat
  | .id => 0x0000
  | .cap .a => 0x0004
  | .cap .b => 0x0008
  | .cap .c => 0x000C
  | .cmd => 0x0010
  | .status => 0x0014
  | .irqEn => 0x0018
  | .len .a => 0x0020
  | .len .b => 0x0024
  | .len .c => 0x0028

/-- The part of `Decode(addr)` of R72 that lists the control registers by their offsets. -/
def decodeReg (n : Nat) : Option Reg :=
  if n = 0x0000 then some .id
  else if n = 0x0004 then some (.cap .a)
  else if n = 0x0008 then some (.cap .b)
  else if n = 0x000C then some (.cap .c)
  else if n = 0x0010 then some .cmd
  else if n = 0x0014 then some .status
  else if n = 0x0018 then some .irqEn
  else if n = 0x0020 then some (.len .a)
  else if n = 0x0024 then some (.len .b)
  else if n = 0x0028 then some (.len .c)
  else none

/-- `Decode(addr)` of R72, the map of R62. -/
def decodeAddr (addr : Addr) : Region :=
  let n := addr.toNat
  if 0x0100 ≤ n ∧ n ≤ 0x015F then .out (n - 0x0100)
  else if 0x1000 ≤ n ∧ n ≤ 0x1FFF then .win .b (n - 0x1000)
  else if 0x2000 ≤ n ∧ n ≤ 0x2FFF then .win .c (n - 0x2000)
  else if 0x8000 ≤ n ∧ n ≤ 0xFFFF then .win .a (n - 0x8000)
  else
    match decodeReg n with
    | some r => .reg r
    | none => .reserved

/-- The offset that selects a region, where there is one. -/
def encodeRegion : Region → Option Addr
  | .reg r => some (BitVec.ofNat 16 (regOffset r))
  | .out o => some (BitVec.ofNat 16 (outBase + o))
  | .win s o => some (BitVec.ofNat 16 (winBase s + o))
  | .reserved => none

end Sys2Proof
end

