-- ==== Sys2Proof/Machine/State.lean ====
section
/-! DEFINITION. The state of HKX (spec/10_state.md R42), the host port's environment beside it, reset
(spec/70_reset_and_hazards.md R240), and the reasons a step can stop. -/

namespace Sys2Proof.Machine

/-! ## The bus record of R91 -/

/-- The kind of a transaction: R or W (R91). -/
inductive Kind where
  | read
  | write
deriving DecidableEq, Repr

/-- A host transaction (R91).  `size` is the 3-bit field; only 4 is legal (R69). -/
structure Transaction where
  kind : Kind
  addr : Addr
  size : BitVec 3
  wdata : Word
deriving DecidableEq, Repr

/-- `resp` of R91. -/
inductive Resp where
  | okay
  | error
deriving DecidableEq, Repr

/-- The response to a transaction (R91). -/
structure Response where
  resp : Resp
  rdata : Word
deriving DecidableEq, Repr

/-! ## The device -/

/-- PEND (R39). -/
inductive Pend where
  | none
  | derive (chunks : Byte)
  | verify (length : Byte)
deriving DecidableEq, Repr

/-- An x_LEN register: LEN and PRESENT (R34). -/
structure SlotReg where
  len : BitVec 16
  present : Bool
deriving DecidableEq, Repr

/-- The bytes of the windows and of OUT, each under its offset in the host port's map (R62 to R64), as a
sparse list: an offset not listed reads as 0x00, the value R240 gives every byte at reset. -/
abbrev Memory := List Host.Cell

/-- The canonical form: offsets strictly rising, and no entry for a byte that is 0x00. -/
abbrev Memory.wf (m : Memory) : Prop :=
  m.Pairwise (fun x y => x.1 < y.1) ∧ ∀ x ∈ m, x.2 ≠ 0#8

/-- The device's record, field for field the one of R42.  `win` and `out` are the two parts of `mem`;
`len` and `present` are held slot by slot. -/
structure Hkx where
  busy : Bool
  done : Bool
  berr : Bool
  err : BitVec 4
  errArg : BitVec 3
  outCount : BitVec 2
  ie : Bool
  lenA : SlotReg
  lenB : SlotReg
  lenC : SlotReg
  mem : Memory
  pend : Pend
deriving DecidableEq, Repr

/-! ## The environment: the host and the platform -/

/-- Something the outside does: one host transaction (R72); one poll, which the host repeats until the
masked word read has the value (R101); or the platform's reset input (R240). -/
inductive Input where
  | bus (t : Transaction)
  | poll (off : Addr) (mask val : Word)
  | reset
deriving DecidableEq, Repr

/-- The two agents of R42. -/
inductive Agent where
  | host
  | engine
deriving DecidableEq, Repr

/-- The model's state.
* `cfg`: the configuration, fixed for the machine (R42; log entry 1).
* `dev`: the device's state, the record of R42.
* `inputs`: what the host and the platform have still to do, in program order (log entry 4).
* `turns`: who moves next whenever both agents could; the engine when the list is used up (log entry 5).
* `lastResp`: the response to the last transaction made, if any was (log entry 6). -/
structure State where
  cfg : Config
  dev : Hkx
  inputs : List Input
  turns : List Agent
  lastResp : Option Response
deriving DecidableEq, Repr

/-! ## Reset -/

/-- The device after reset: "Nothing is left unspecified" (R240). -/
def Hkx.reset : Hkx :=
  { busy := false, done := false, berr := false, err := 0#4, errArg := 0#3, outCount := 0#2,
    ie := false, lenA := ⟨0#16, false⟩, lenB := ⟨0#16, false⟩, lenC := ⟨0#16, false⟩,
    mem := [], pend := .none }

/-- The machine right after reset, with nothing asked of it yet (R240; log entries 1, 4, 5, 6). -/
def State.reset : State :=
  { cfg := Config.standard, dev := Hkx.reset, inputs := [], turns := [], lastResp := none }

/-! ## Why a step can stop -/

/-- Faults.  HKX itself has none: a bad access is a bus error and a failed command an ERR code, both
next states. -/
inductive Fault where
  /-- Raised by the engine step alone: BUSY = 1 with PEND = none, the case R120 calls "unreachable".
  Safe: no effect is given for it, and the invariant of Safety.lean rules it out. -/
  | noPendingCommand
deriving DecidableEq, Repr

/-- Refusals. -/
inductive Refusal where
  /-- Raised by an arm of `exec` whose command has no meaning yet; no arm of this model raises it.  Safe. -/
  | notModelled (mnemonic : String)
deriving DecidableEq, Repr

end Sys2Proof.Machine
end

