-- ==== Sys2Proof/Machine/Ops.lean ====
section
/-! DEFINITION. The operations every command and every transaction shares: bytes and words of the windows
and OUT, the responses, taking an error (`Complete`, bus error) and acknowledging it. -/

namespace Sys2Proof.Machine

/-! ## Bytes -/

/-- The byte at an offset; one that is not listed reads as 0x00 (R240). -/
def Memory.read : Memory → Nat → Byte
  | [], _ => 0#8
  | (x, b) :: m, a => if x = a then b else Memory.read m a

/-- Store one byte, keeping the canonical form: storing 0x00 removes the entry. -/
def Memory.write : Memory → Nat → Byte → Memory
  | [], a, v => if v = 0#8 then [] else [(a, v)]
  | (x, b) :: m, a, v =>
    if a < x then (if v = 0#8 then (x, b) :: m else (a, v) :: (x, b) :: m)
    else if a = x then (if v = 0#8 then m else (a, v) :: m)
    else (x, b) :: Memory.write m a v

/-- The `n` bytes from offset `a` on, in order. -/
def Memory.readBytes (m : Memory) (a : Nat) : Nat → Bytes
  | 0 => []
  | n + 1 => m.read a :: Memory.readBytes m (a + 1) n

/-- Store a byte string from offset `a` on. -/
def Memory.writeBytes (m : Memory) (a : Nat) : Bytes → Memory
  | [] => m
  | b :: bs => Memory.writeBytes (m.write a b) (a + 1) bs

/-! ## Words: little-endian (R67) -/

/-- `b0 | b1 << 8 | b2 << 16 | b3 << 24` (R67, R71). -/
def le32 (b0 b1 b2 b3 : Byte) : Word :=
  b0.setWidth 32 ||| (b1.setWidth 32 <<< (8 : Nat)) ||| (b2.setWidth 32 <<< (16 : Nat))
    ||| (b3.setWidth 32 <<< (24 : Nat))

/-- `w[8j+7:8j]` for j = 0 to 3 (R70). -/
def le32Bytes (w : Word) : Bytes :=
  [w.extractLsb' 0 8, w.extractLsb' 8 8, w.extractLsb' 16 8, w.extractLsb' 24 8]

/-- `LE32(arr, o)` of R72, at offset `a`. -/
def Memory.readWord (m : Memory) (a : Nat) : Word :=
  le32 (m.read a) (m.read (a + 1)) (m.read (a + 2)) (m.read (a + 3))

/-- Store the four bytes of a word at offset `a` (R70). -/
def Memory.writeWord (m : Memory) (a : Nat) (w : Word) : Memory := m.writeBytes a (le32Bytes w)

/-! ## OUT -/

/-- `out := 0^96` (R113): no byte of OUT stays listed, so each reads as 0x00. -/
def Memory.clearOut (m : Memory) : Memory :=
  m.filter fun x => !(decide (outBase ≤ x.1) && decide (x.1 < outBase + outSize))

/-! ## Error codes and operand numbers (R30, R31, R200) -/

def errNone : BitVec 4 := 0#4
def errType : BitVec 4 := 1#4
def errLength : BitVec 4 := 2#4
def errRange : BitVec 4 := 3#4
def errAuth : BitVec 4 := 4#4
def errCapacity : BitVec 4 := 5#4
def errIllegalCmd : BitVec 4 := 6#4

/-- ERR_ARG for no operand. -/
def argNone : BitVec 3 := 0#3
/-- ERR_ARG for the command's ARG field. -/
def argField : BitVec 3 := 4#3
/-- ERR_ARG for a slot: `argId` of R118. -/
def argId : Slot → BitVec 3
  | .a => 1#3
  | .b => 2#3
  | .c => 3#3

/-! ## Starting and ending a command -/

/-- A command that ends within its CMD write: `ExecNop` of R111 with code 0, `ExecIllegal` of R112 with
code 6. -/
def Hkx.finishAtIssue (d : Hkx) (code : BitVec 4) : Hkx :=
  { d with err := code, errArg := argNone, done := true }

/-- `Start(s, p)` of R113 for a pending DERIVE: OUT and OUT_COUNT are zeroed too. -/
def Hkx.startDerive (d : Hkx) (n : Byte) : Hkx :=
  { d with busy := true, done := false, err := errNone, errArg := argNone, pend := .derive n,
           mem := d.mem.clearOut, outCount := 0#2 }

/-- `Start(s, p)` of R113 for a pending VERIFY. -/
def Hkx.startVerify (d : Hkx) (n : Byte) : Hkx :=
  { d with busy := true, done := false, err := errNone, errArg := argNone, pend := .verify n }

/-- `Complete(s, code, arg)` of R119.  It is also how a command takes an error: `raise Err(code, arg)`
means exactly this (R201), there being no trap entry, vector or saved program counter (R204). -/
def Hkx.complete (d : Hkx) (code : BitVec 4) (arg : BitVec 3) : Hkx :=
  { d with err := code, errArg := arg, busy := false, done := true, pend := .none }

/-- The chunks of a successful DERIVE into OUT and their number into OUT_COUNT (R135). -/
def Hkx.storeChunks (d : Hkx) (chunks : List Bytes32) (n : Byte) : Hkx :=
  { d with mem := d.mem.writeBytes outBase (chunks.flatMap Vector.toList), outCount := n.setWidth 2 }

/-! ## Responses -/

/-- `(d, OKAY, rdata)`. -/
def State.okay (s : State) (d : Hkx) (rdata : Word) : State :=
  { s with dev := d, lastResp := some ⟨.okay, rdata⟩ }

/-- `BusError(s)` of R72: BERR, an ERROR response with rdata 0, and nothing else (R206). -/
def State.busError (s : State) : State :=
  { s with dev := { s.dev with berr := true }, lastResp := some ⟨.error, 0#32⟩ }

/-- The shared frame of a CMD write (R72, R110): while BUSY = 1 it is a bus error and the command is not
issued; otherwise the command acts on the device and the response is OKAY with rdata 0. -/
def State.issueCmd (s : State) (effect : Hkx → Hkx) : State :=
  if s.dev.busy then s.busError else s.okay (effect s.dev) 0#32

/-- The platform's reset input: "every piece of state" of the device takes its reset value (R240), a
pending command is abandoned (R241).  The configuration and the environment are not the device's. -/
def State.resetDevice (s : State) : State := { s with dev := Hkx.reset }

end Sys2Proof.Machine
end

