-- ==== Sys2Proof/Machine/Operands.lean ====
section
/-! DEFINITION. The operands of a command: the slots A, B and C (R34 to R37, R95), and the operand guard
(R114 to R118). -/

namespace Sys2Proof.Machine

/-- The x_LEN register of a slot (R34). -/
def Hkx.slot (d : Hkx) : Slot → SlotReg
  | .a => d.lenA
  | .b => d.lenB
  | .c => d.lenC

/-- Put a slot's x_LEN register. -/
def Hkx.setSlot (d : Hkx) (s : Slot) (r : SlotReg) : Hkx :=
  match s with
  | .a => { d with lenA := r }
  | .b => { d with lenB := r }
  | .c => { d with lenC := r }

/-- `PRESENT(S)` (R36). -/
def Hkx.present (d : Hkx) (s : Slot) : Bool := (d.slot s).present

/-- `LEN(S)`, a natural number (R35, R123). -/
def Hkx.len (d : Hkx) (s : Slot) : Nat := (d.slot s).len.toNat

/-- `Bytes(S) = Win(S)[0:LEN(S)]` (R35). -/
def Hkx.bytes (d : Hkx) (s : Slot) : Bytes := d.mem.readBytes (winBase s) (d.len s)

/-- `Guard1(s, S)` of R118: absence first (R116), then capacity (R117). -/
def Hkx.guard1 (d : Hkx) (cfg : Config) (s : Slot) : Option (BitVec 4 × BitVec 3) :=
  if d.present s = false then some (errType, argId s)
  else if d.len s > cfg.cap s then some (errCapacity, argId s)
  else none

/-- `Guard(s)` of R118: the slots in the order A, B, C, the first failure wins (R115). -/
def Hkx.guard (d : Hkx) (cfg : Config) : Option (BitVec 4 × BitVec 3) :=
  (d.guard1 cfg .a).or ((d.guard1 cfg .b).or (d.guard1 cfg .c))

end Sys2Proof.Machine
end

