-- ==== Sys2Proof/Machine/Flags.lean ====
section
/-! DEFINITION. The register words: STATUS, IRQ_EN, x_LEN, ID and CAP_x as the host reads and writes them
(R22 to R34), and the interrupt output (R41, R210). -/

namespace Sys2Proof.Machine

/-- The constant of ID (R23). -/
def idWord : Word := 0x484B4446#32

/-- CAP_x: bits 15:0 read the capacity, bits 31:16 read 0 (R24). -/
def capWord (cfg : Config) (s : Slot) : Word := (BitVec.ofNat 16 (cfg.cap s)).setWidth 32

/-- `StatusWord(s)` of R72, the fields of R26. -/
def Hkx.statusWord (d : Hkx) : Word :=
  (BitVec.ofBool d.busy).setWidth 32
    ||| ((BitVec.ofBool d.done).setWidth 32 <<< (1 : Nat))
    ||| ((BitVec.ofBool d.berr).setWidth 32 <<< (2 : Nat))
    ||| (d.err.setWidth 32 <<< (8 : Nat))
    ||| (d.errArg.setWidth 32 <<< (12 : Nat))
    ||| (d.outCount.setWidth 32 <<< (16 : Nat))

/-- A STATUS write: DONE and BERR are write-1-to-clear, every other bit is ignored (R26).  Writing bit 1
is how the host acknowledges a command, ended well or in error (R205). -/
def Hkx.writeStatus (d : Hkx) (w : Word) : Hkx :=
  { d with done := d.done && !w.getLsbD 1, berr := d.berr && !w.getLsbD 2 }

/-- IRQ_EN: bit 0 is IE, the others read 0 (R33). -/
def Hkx.irqEnWord (d : Hkx) : Word := (BitVec.ofBool d.ie).setWidth 32

/-- An IRQ_EN write: `IE <- wdata[0]` (R33). -/
def Hkx.writeIrqEn (d : Hkx) (w : Word) : Hkx := { d with ie := w.getLsbD 0 }

/-- x_LEN: LEN in bits 15:0, PRESENT in bit 31, the others read 0 (R34). -/
def Hkx.lenWord (d : Hkx) (s : Slot) : Word :=
  ((BitVec.ofBool (d.present s)).setWidth 32 <<< (31 : Nat)) ||| (d.slot s).len.setWidth 32

/-- An x_LEN write: `LEN(S) <- wdata[15:0]` and `PRESENT(S) <- wdata[31]`, both at once (R34). -/
def Hkx.writeLen (d : Hkx) (s : Slot) (w : Word) : Hkx :=
  d.setSlot s ⟨w.extractLsb' 0 16, w.getLsbD 31⟩

/-- A window write at byte `o` of slot `s` (R70). -/
def Hkx.writeWin (d : Hkx) (s : Slot) (o : Nat) (w : Word) : Hkx :=
  { d with mem := d.mem.writeWord (winBase s + o) w }

/-- `irq = STATUS.DONE ∧ IRQ_EN.IE`, a level and no state of its own (R41, R210). -/
def Hkx.irq (d : Hkx) : Bool := d.done && d.ie

end Sys2Proof.Machine
end

