-- ==== Sys2Proof/Machine/Command.lean ====
section
/-! DEFINITION. The two commands that compute nothing: NOP (R111) and ILLEGAL (R112). -/

namespace Sys2Proof.Machine

/-- NOP (R111): ERR = 0, ERR_ARG = 0, DONE = 1, within the CMD write. -/
def execNop (s : State) : Host.Outcome State Fault Refusal :=
  .next (s.issueCmd fun d => d.finishAtIssue errNone)

/-- ILLEGAL (R112): what a word that decodes to no command does.  ERR = 6, ERR_ARG = 0, DONE = 1, within
the CMD write. -/
def execIllegal (s : State) : Host.Outcome State Fault Refusal :=
  .next (s.issueCmd fun d => d.finishAtIssue errIllegalCmd)

end Sys2Proof.Machine
end

