-- ==== Sys2Proof/Machine/Hmac.lean ====
section
/-! DEFINITION. `HMAC(k, m)`, the configuration function of R11, and its intended instance: RFC 2104
HMAC over SHA-256 (R13; FIPS 180-4 for SHA-256 itself).

PRESUMED (log entry 3): the spec names SHA-256 by its standard and calls its internals a non-goal
(R4(c), R13), so the text of SHA-256 below is taken from FIPS 180-4.  Vectors H1 to H8 of
spec/95_test_vectors.md are the check. -/

namespace Sys2Proof.Machine

/-- The eight 32-bit state words of SHA-256. -/
structure ShaState where
  a : Word
  b : Word
  c : Word
  d : Word
  e : Word
  f : Word
  g : Word
  h : Word
deriving DecidableEq, Repr

/-- The initial hash value (FIPS 180-4, 5.3.3). -/
def shaInit : ShaState :=
  ⟨0x6a09e667#32, 0xbb67ae85#32, 0x3c6ef372#32, 0xa54ff53a#32,
   0x510e527f#32, 0x9b05688c#32, 0x1f83d9ab#32, 0x5be0cd19#32⟩

/-- The 64 round constants (FIPS 180-4, 4.2.2), in four rows of sixteen. -/
def shaK : List Word :=
  [0x428a2f98#32, 0x71374491#32, 0xb5c0fbcf#32, 0xe9b5dba5#32, 0x3956c25b#32, 0x59f111f1#32,
   0x923f82a4#32, 0xab1c5ed5#32, 0xd807aa98#32, 0x12835b01#32, 0x243185be#32, 0x550c7dc3#32,
   0x72be5d74#32, 0x80deb1fe#32, 0x9bdc06a7#32, 0xc19bf174#32] ++
  [0xe49b69c1#32, 0xefbe4786#32, 0x0fc19dc6#32, 0x240ca1cc#32, 0x2de92c6f#32, 0x4a7484aa#32,
   0x5cb0a9dc#32, 0x76f988da#32, 0x983e5152#32, 0xa831c66d#32, 0xb00327c8#32, 0xbf597fc7#32,
   0xc6e00bf3#32, 0xd5a79147#32, 0x06ca6351#32, 0x14292967#32] ++
  [0x27b70a85#32, 0x2e1b2138#32, 0x4d2c6dfc#32, 0x53380d13#32, 0x650a7354#32, 0x766a0abb#32,
   0x81c2c92e#32, 0x92722c85#32, 0xa2bfe8a1#32, 0xa81a664b#32, 0xc24b8b70#32, 0xc76c51a3#32,
   0xd192e819#32, 0xd6990624#32, 0xf40e3585#32, 0x106aa070#32] ++
  [0x19a4c116#32, 0x1e376c08#32, 0x2748774c#32, 0x34b0bcb5#32, 0x391c0cb3#32, 0x4ed8aa4a#32,
   0x5b9cca4f#32, 0x682e6ff3#32, 0x748f82ee#32, 0x78a5636f#32, 0x84c87814#32, 0x8cc70208#32,
   0x90befffa#32, 0xa4506ceb#32, 0xbef9a3f7#32, 0xc67178f2#32]

/-- One round on the working variables, with schedule word `w` and constant `k`. -/
def shaRound (v : ShaState) (w k : Word) : ShaState :=
  let s1 := v.e.rotateRight 6 ^^^ v.e.rotateRight 11 ^^^ v.e.rotateRight 25
  let ch := (v.e &&& v.f) ^^^ (~~~ v.e &&& v.g)
  let t1 := v.h + s1 + ch + k + w
  let s0 := v.a.rotateRight 2 ^^^ v.a.rotateRight 13 ^^^ v.a.rotateRight 22
  let maj := (v.a &&& v.b) ^^^ (v.a &&& v.c) ^^^ (v.b &&& v.c)
  ⟨t1 + (s0 + maj), v.a, v.b, v.c, v.d + t1, v.e, v.f, v.g⟩

/-- The schedule word that follows the sixteen words `ws`. -/
def shaNextWord (ws : List Word) : Word :=
  let w1 := ws.getD 1 0#32
  let w14 := ws.getD 14 0#32
  (w14.rotateRight 17 ^^^ w14.rotateRight 19 ^^^ (w14 >>> (10 : Nat))) + ws.getD 9 0#32
    + (w1.rotateRight 7 ^^^ w1.rotateRight 18 ^^^ (w1 >>> (3 : Nat))) + ws.getD 0 0#32

/-- The rounds, one for each constant, over a sliding window of sixteen schedule words. -/
def shaRounds : List Word → List Word → ShaState → ShaState
  | [], _, v => v
  | k :: ks, ws, v => shaRounds ks (ws.tail ++ [shaNextWord ws]) (shaRound v (ws.getD 0 0#32) k)

/-- A big-endian word of four bytes. -/
def be32 (b0 b1 b2 b3 : Byte) : Word :=
  (b0.setWidth 32 <<< (24 : Nat)) ||| (b1.setWidth 32 <<< (16 : Nat)) ||| (b2.setWidth 32 <<< (8 : Nat)) ||| b3.setWidth 32

/-- The big-endian words of a byte string whose length is a multiple of four. -/
def be32s : Bytes → List Word
  | b0 :: b1 :: b2 :: b3 :: rest => be32 b0 b1 b2 b3 :: be32s rest
  | _ => []

/-- The four bytes of a word, most significant first. -/
def be32Bytes (w : Word) : Bytes :=
  [w.extractLsb' 24 8, w.extractLsb' 16 8, w.extractLsb' 8 8, w.extractLsb' 0 8]

/-- One block: 64 rounds, then the working variables added into the state. -/
def shaBlock (v : ShaState) (block : Bytes) : ShaState :=
  let r := shaRounds shaK (be32s block) v
  ⟨v.a + r.a, v.b + r.b, v.c + r.c, v.d + r.d, v.e + r.e, v.f + r.f, v.g + r.g, v.h + r.h⟩

/-- The first `n` 64-byte blocks of a padded message. -/
def shaBlocks : Nat → ShaState → Bytes → ShaState
  | 0, v, _ => v
  | n + 1, v, m => shaBlocks n (shaBlock v (m.take 64)) (m.drop 64)

/-- Padding: `0x80`, zeros up to 56 modulo 64, the length in bits as eight big-endian bytes. -/
def shaPad (m : Bytes) : Bytes :=
  let bits := BitVec.ofNat 64 (8 * m.length)
  m ++ [0x80#8] ++ List.replicate ((119 - m.length % 64) % 64) 0#8
    ++ be32Bytes (bits.extractLsb' 32 32) ++ be32Bytes (bits.extractLsb' 0 32)

/-- The digest: the big-endian serialisation of the eight state words (R13). -/
def ShaState.digest (v : ShaState) : Bytes32 :=
  ⟨(be32Bytes v.a ++ be32Bytes v.b ++ be32Bytes v.c ++ be32Bytes v.d
     ++ be32Bytes v.e ++ be32Bytes v.f ++ be32Bytes v.g ++ be32Bytes v.h).toArray, by
    simp [be32Bytes]⟩

/-- SHA-256 (FIPS 180-4). -/
def sha256 (m : Bytes) : Bytes32 :=
  (shaBlocks ((shaPad m).length / 64) shaInit (shaPad m)).digest

/-- `K0` of R13: the key, hashed first when longer than 64 bytes, zero padded to 64 bytes. -/
def hmacKey (k : Bytes) : Bytes :=
  if k.length > 64 then (sha256 k).toList ++ List.replicate 32 0#8
  else k ++ List.replicate (64 - k.length) 0#8

/-- RFC 2104 HMAC with SHA-256, as R13 writes it. -/
def hmacSha256 (k m : Bytes) : Bytes32 :=
  let k0 := hmacKey k
  sha256 (k0.map (· ^^^ 0x5c#8) ++ (sha256 (k0.map (· ^^^ 0x36#8) ++ m)).toList)

/-- `HMAC(k, m)`, the key first (R11): the intended instance of R13, or one the model knows nothing
of beyond R12 (total, deterministic, 32 bytes). -/
def hmac (c : HmacChoice) (k m : Bytes) : Bytes32 :=
  match c with
  | .rfc2104 => hmacSha256 k m
  | .other n => Config.freeHmac n k m

end Sys2Proof.Machine
end

