-- ==== Sys2Proof/Machine/Derive.lean ====
section
/-! DEFINITION. DERIVE and DERIVE.DEF (spec/41_derive.md): the derivation function, the issue of both
commands and the engine step that performs a pending DERIVE. -/

namespace Sys2Proof.Machine

/-- A round message of R131: the Expansion Info Block T with its first 32 bytes and its counter byte
set. -/
def infoBlock (prev : Bytes) (info : Bytes) (counter : Byte) : Bytes := prev ++ info ++ [counter]

/-- `DeriveFn(input, salt, info, n)` of R131, over the HMAC function `h`.  It is used for 1 ≤ n ≤ 3
only; PRK and T are local (R40).  Round 1 hashes T without its first 32 bytes (R138). -/
def deriveFn (h : Bytes → Bytes → Bytes32) (input salt info : Bytes) (n : Nat) : List Bytes32 :=
  let prk := (h salt input).toList
  let t1 := infoBlock (List.replicate 32 0#8) info 0x01#8
  let c0 := h prk (t1.drop 32)
  if n = 1 then [c0]
  else
    let t2 := infoBlock c0.toList info 0x02#8
    let c1 := h prk t2
    if n = 2 then [c0, c1]
    else
      let t3 := infoBlock c1.toList info 0x03#8
      let c2 := h prk t3
      [c0, c1, c2]

/-- `ExecDerive(s, n)` of R136: the guard, then the salt length (R132), then the chunk count (R133), then
the chunks into OUT (R135). -/
def engineDerive (cfg : Config) (d : Hkx) (n : Byte) : Hkx :=
  match d.guard cfg with
  | some (code, arg) => d.complete code arg
  | none =>
    if d.len .b ≠ 32 then d.complete errLength (argId .b)
    else if n.toNat < 1 ∨ n.toNat > 3 then d.complete errRange argField
    else
      let chunks := deriveFn (hmac cfg.hmac) (d.bytes .a) (d.bytes .b) (d.bytes .c) n.toNat
      (d.storeChunks chunks n).complete errNone argNone

/-- DERIVE (R136): the CMD write starts it with `Derive ARG` (R113); the engine step performs it. -/
def execDerive (arg : Byte) (s : State) : Host.Outcome State Fault Refusal :=
  .next (s.issueCmd fun d => d.startDerive arg)

/-- DERIVE.DEF (R137): as DERIVE with the chunk count omitted, "issue latches `Derive 3`". -/
def execDeriveDef (s : State) : Host.Outcome State Fault Refusal :=
  .next (s.issueCmd fun d => d.startDerive 3#8)

end Sys2Proof.Machine
end

