-- ==== Sys2Proof/Machine/Verify.lean ====
section
/-! DEFINITION. VERIFY and the comparator (spec/42_verify.md). -/

namespace Sys2Proof.Machine

/-- The comparator's accumulator (R156): the OR, over every byte pair, of their XOR, from 0x00 on.  No
pair is left out, whatever the ones before it hold. -/
def cmpAcc (acc : Byte) : Bytes → Bytes → Byte
  | x :: xs, y :: ys => cmpAcc (acc ||| (x ^^^ y)) xs ys
  | _, _ => acc

/-- `CTEQ(x, y)` for byte strings of one length (R14). -/
def ctEq (x y : Bytes) : Bool := cmpAcc 0x00#8 x y == 0x00#8

/-- `VerifyFn(data, key, mac, n)` of R151, over the HMAC function `h`: the (ERR, ERR_ARG) pair.
`tag` is the calculated MAC, truncated to its leading bytes (R152). -/
def verifyFn (h : Bytes → Bytes → Bytes32) (data key mac : Bytes) (n : Nat) : BitVec 4 × BitVec 3 :=
  let tag := (h key data).toList.take (min n 32)
  if mac.length ≠ n then (errLength, argId .c)
  else if tag.length ≠ n then (errLength, argField)
  else if ctEq mac tag = false then (errAuth, argId .c)
  else (errNone, argNone)

/-- `ExecVerify(s, n)` of R157. -/
def engineVerify (cfg : Config) (d : Hkx) (n : Byte) : Hkx :=
  match d.guard cfg with
  | some (code, arg) => d.complete code arg
  | none =>
    let r := verifyFn (hmac cfg.hmac) (d.bytes .a) (d.bytes .b) (d.bytes .c) n.toNat
    d.complete r.1 r.2

/-- VERIFY (R157): the CMD write starts it with `Verify ARG` (R113); the engine step performs it. -/
def execVerify (arg : Byte) (s : State) : Host.Outcome State Fault Refusal :=
  .next (s.issueCmd fun d => d.startVerify arg)

end Sys2Proof.Machine
end

