-- ==== Sys2Proof/Machine/Engine.lean ====
section
/-! DEFINITION. The engine step (R120). -/

namespace Sys2Proof.Machine

/-- `EngineStep(s)` of R120, taken only while BUSY = 1: the pending command performed whole, in one
step.  It makes no transaction, so the last response stands. -/
def engineStep (s : State) : Host.Outcome State Fault Refusal :=
  match s.dev.pend with
  | .derive n => .next { s with dev := engineDerive s.cfg s.dev n }
  | .verify n => .next { s with dev := engineVerify s.cfg s.dev n }
  | .none => .fault .noPendingCommand

end Sys2Proof.Machine
end

