-- ==== Sys2Proof/Machine/Dispatch.lean ====
section
/-! DEFINITION. One arm per command: what writing its word to CMD does (R110). -/

namespace Sys2Proof.Machine

def exec (i : Instr) (s : State) : Host.Outcome State Fault Refusal :=
  match i with
  | .nop => Sys2Proof.Machine.execNop s
  | .deriveDef => Sys2Proof.Machine.execDeriveDef s
  | .derive arg => Sys2Proof.Machine.execDerive arg s
  | .verify arg => Sys2Proof.Machine.execVerify arg s

end Sys2Proof.Machine
end

