-- ==== Sys2Proof/Machine/HostPort.lean ====
section
/-! DEFINITION. The host port: one transaction (R72), one turn of the host or the platform, and which
agent moves (R73, R76, R121). -/

namespace Sys2Proof.Machine

/-- `Issue(s, w)` of R110. -/
def issue (s : State) (w : Word) : Host.Outcome State Fault Refusal :=
  match decode w with
  | .ok i => exec i s
  | .error _ => execIllegal s

/-- A register or an array the host may only read: a write is a bus error (R206(e)). -/
def readOnly (s : State) (kind : Kind) (rdata : Word) : State :=
  match kind with
  | .read => s.okay s.dev rdata
  | .write => s.busError

/-- A register the host may read and write: a read has no effect, a write answers rdata 0 (R72). -/
def readWrite (s : State) (kind : Kind) (rdata : Word) (written : Hkx) : State :=
  match kind with
  | .read => s.okay s.dev rdata
  | .write => s.okay written 0#32

/-- `addr[1:0] = 00` (R69). -/
def aligned (addr : Addr) : Bool := addr.extractLsb' 0 2 == 0#2

/-- `HostStep(s, kind, addr, size, wdata)` of R72, its checks in its order. -/
def hostStep (s : State) (t : Transaction) : Host.Outcome State Fault Refusal :=
  if t.size ≠ 4#3 ∨ aligned t.addr = false then .next s.busError
  else if t.kind = .write ∧ s.dev.busy = true then .next s.busError
  else match decodeAddr t.addr with
    | .reg .id => .next (readOnly s t.kind idWord)
    | .reg (.cap x) => .next (readOnly s t.kind (capWord s.cfg x))
    | .reg .cmd =>
      match t.kind with
      | .read => .next (s.okay s.dev 0#32)
      | .write => issue s t.wdata
    | .reg .status => .next (readWrite s t.kind s.dev.statusWord (s.dev.writeStatus t.wdata))
    | .reg .irqEn => .next (readWrite s t.kind s.dev.irqEnWord (s.dev.writeIrqEn t.wdata))
    | .reg (.len x) => .next (readWrite s t.kind (s.dev.lenWord x) (s.dev.writeLen x t.wdata))
    | .out o => .next (readOnly s t.kind (s.dev.mem.readWord (outBase + o)))
    | .win x o =>
      if o ≥ s.cfg.cap x then .next s.busError
      else .next (readWrite s t.kind (s.dev.mem.readWord (winBase x + o)) (s.dev.writeWin x o t.wdata))
    | .reserved => .next s.busError

/-- `RD off` (R100): a 4-byte read. -/
def rd (off : Addr) : Transaction := ⟨.read, off, 4#3, 0#32⟩

/-- `WR off, value` (R100): a 4-byte write. -/
def wr (off : Addr) (value : Word) : Transaction := ⟨.write, off, 4#3, value⟩

/-- The rdata of the last response; 0 before any. -/
def State.lastRdata (s : State) : Word :=
  match s.lastResp with
  | some r => r.rdata
  | none => 0#32

/-- One turn of the outside.  A poll reads once, and stays first in the queue until
`(rdata AND mask) = val` (R101). -/
def inputStep (s : State) (i : Input) : Host.Outcome State Fault Refusal :=
  match i with
  | .bus t => hostStep s t
  | .reset => .next s.resetDevice
  | .poll off mask val =>
    match hostStep s (rd off) with
    | .next s' =>
      if s'.lastRdata &&& mask = val then .next s'
      else .next { s' with inputs := .poll off mask val :: s'.inputs }
    | .fault r => .fault r
    | .refused r => .refused r

/-- One move of one agent.  The engine step is enabled exactly when BUSY = 1 (R120), the outside when it
has an input left.  Where both are, `turns` says who goes first (R76, R121: every interleaving is
allowed) and the engine goes once it is used up; where neither is, HKX is idle (R217). -/
def move (s : State) : Host.Outcome State Fault Refusal :=
  match s.dev.busy, s.inputs with
  | false, [] => .next s
  | false, i :: rest => inputStep { s with inputs := rest } i
  | true, [] => engineStep s
  | true, i :: rest =>
    match s.turns with
    | [] => engineStep s
    | .engine :: ts => engineStep { s with turns := ts }
    | .host :: ts => inputStep { s with inputs := rest, turns := ts } i

/-- The CMD write of a word as the host's next move, which the schedule lets it make. -/
def placeCmdWrite (s : State) (w : Word) : State :=
  { s with inputs := .bus (wr (BitVec.ofNat 16 (regOffset .cmd)) w) :: s.inputs,
           turns := if s.dev.busy then .host :: s.turns else s.turns }

end Sys2Proof.Machine
end

