-- ==== Sys2Proof/Machine/HostProgram.lean ====
section
/-! DEFINITION. Host programs (R99 to R101): the pseudo-instructions and their expansions, each a list of
the host's inputs in program order. -/

namespace Sys2Proof.Machine

/-- The offset of a register as a port address. -/
def regAddr (r : Reg) : Addr := BitVec.ofNat 16 (regOffset r)

/-- `CMD <command>`: `WR CMD, <word of rule R99>`. -/
def progCmd (i : Instr) : List Input := [.bus (wr (regAddr .cmd) (encode i))]

/-- The words of a byte string, "with missing bytes past n−1 taken as 0x00" (R101). -/
def loadWords : Bytes → List Word
  | [] => []
  | [b0] => [le32 b0 0#8 0#8 0#8]
  | [b0, b1] => [le32 b0 b1 0#8 0#8]
  | [b0, b1, b2] => [le32 b0 b1 b2 0#8]
  | b0 :: b1 :: b2 :: b3 :: rest => le32 b0 b1 b2 b3 :: loadWords rest

/-- `WR a+4k, w_k` for each word, k = 0, 1, …  DESIGN CHOICE (log entry 18): where `a+4k` leaves the 16-bit offset
space of R91, which R101 leaves open, the offset is taken modulo 2^16. -/
def storeWords (a : Nat) : List Word → List Input
  | [] => []
  | w :: ws => .bus (wr (BitVec.ofNat 16 a) w) :: storeWords (a + 4) ws

/-- Whether the offsets that LOAD writes for `n` bytes all lie in the 16-bit offset space of R91. -/
def loadFits (s : Slot) (n : Nat) : Bool := decide (winBase s + n ≤ 0x10000)

/-- `LOAD S, <bytes>`: the window words, then `WR S_LEN, 0x80000000 OR n`.  Where `loadFits` does not hold, R101 leaves
the expansion open and this one is the model's (log entry 18). -/
def progLoad (s : Slot) (bs : Bytes) : List Input :=
  storeWords (winBase s) (loadWords bs)
    ++ [.bus (wr (regAddr (.len s)) (0x80000000#32 ||| BitVec.ofNat 32 bs.length))]

/-- `LOADZ S, n`: as LOAD with n zero bytes. -/
def progLoadz (s : Slot) (n : Nat) : List Input := progLoad s (List.replicate n 0#8)

/-- `ABSENT S`: `WR S_LEN, 0x00000000`. -/
def progAbsent (s : Slot) : List Input := [.bus (wr (regAddr (.len s)) 0x00000000#32)]

/-- `POLL off, mask, val`. -/
def progPoll (off : Addr) (mask val : Word) : List Input := [.poll off mask val]

/-- `WAIT`: until BUSY = 0 and DONE = 1. -/
def progWait : List Input := progPoll (regAddr .status) 0x00000003#32 0x00000002#32

/-- `ACK`: `WR STATUS, 0x00000002`. -/
def progAck : List Input := [.bus (wr (regAddr .status) 0x00000002#32)]

/-- A state in which the host has a program to run next. -/
def State.withProgram (s : State) (p : List Input) : State := { s with inputs := p ++ s.inputs }

end Sys2Proof.Machine
end

