-- ==== Sys2Proof/Machine/HostText.lean ====
section
/-! DEFINITION. The text of host programs: the assembler's command syntax (R99), one transaction a line (R100)
and the pseudo-instructions (R101), read into the inputs they stand for. -/

namespace Sys2Proof.Machine

/-- What comes before a comment, which starts with `;` (R100). -/
def stripComment : List Char → List Char
  | [] => []
  | c :: cs => if c = ';' then [] else c :: stripComment cs

/-- The words of a line: blanks and commas part them. -/
def lineWords : List Char → List (List Char)
  | [] => [[]]
  | c :: cs =>
    match lineWords cs with
    | [] => [[c]]
    | w :: ws => if c = ' ' ∨ c = ',' then [] :: w :: ws else (c :: w) :: ws

/-- The words of a line, empty ones left out: without its comment, and without `-> v`, which only names what a
transaction returned (R100). -/
def tokens (line : String) : List (List Char) :=
  ((lineWords (stripComment line.toList)).filter (· ≠ [])).takeWhile (· ≠ ['-', '>'])

/-- A digit of base 10 or 16. -/
def digit (base : Nat) (c : Char) : Option Nat :=
  let n := c.toNat
  let v :=
    if 48 ≤ n ∧ n ≤ 57 then n - 48
    else if 97 ≤ n ∧ n ≤ 102 then n - 87
    else if 65 ≤ n ∧ n ≤ 70 then n - 55
    else base
  if v < base then some v else none

/-- A numeral read from the left, `acc` being what stands before it. -/
def numeral (base acc : Nat) : List Char → Option Nat
  | [] => some acc
  | c :: cs =>
    match digit base c with
    | some v => numeral base (base * acc + v) cs
    | none => none

/-- A number, "decimal, or hex with `0x`" (R99). -/
def number : List Char → Option Nat
  | [] => none
  | '0' :: 'x' :: c :: cs => numeral 16 0 (c :: cs)
  | cs => numeral 10 0 cs

/-- A number below a bound. -/
def numberBelow (bound : Nat) (cs : List Char) : Option Nat :=
  match number cs with
  | some n => if n < bound then some n else none
  | none => none

/-- A 32-bit value. -/
def wordText (cs : List Char) : Option Word := (numberBelow (2 ^ 32) cs).map (BitVec.ofNat 32)

/-- The name of a register (R22). -/
def regName : Reg → String
  | .id => "ID"
  | .cap .a => "CAP_A"
  | .cap .b => "CAP_B"
  | .cap .c => "CAP_C"
  | .cmd => "CMD"
  | .status => "STATUS"
  | .irqEn => "IRQ_EN"
  | .len .a => "A_LEN"
  | .len .b => "B_LEN"
  | .len .c => "C_LEN"

/-- The registers of R22, in the order of their offsets. -/
def registers : List Reg :=
  [.id, .cap .a, .cap .b, .cap .c, .cmd, .status, .irqEn, .len .a, .len .b, .len .c]

/-- `off`: a hex offset or a register's name (R100). -/
def offsetText (cs : List Char) : Option Addr :=
  match registers.find? (fun r => (regName r).toList == cs) with
  | some r => some (regAddr r)
  | none =>
    match cs with
    | '0' :: 'x' :: _ => (numberBelow (2 ^ 16) cs).map (BitVec.ofNat 16)
    | _ => none

/-- A slot's name. -/
def slotText : List Char → Option Slot
  | ['A'] => some .a
  | ['B'] => some .b
  | ['C'] => some .c
  | _ => none

/-- A byte string: "two hex digits per byte, with no prefix" (R10). -/
def bytesText : List Char → Option Bytes
  | [] => some []
  | h :: l :: cs =>
    match digit 16 h, digit 16 l, bytesText cs with
    | some x, some y, some bs => some (BitVec.ofNat 8 (16 * x + y) :: bs)
    | _, _, _ => none
  | [_] => none

/-- `#n` with 0 ≤ n ≤ 255 (R99). -/
def argText : List Char → Option Byte
  | '#' :: cs => (numberBelow 256 cs).map (BitVec.ofNat 8)
  | _ => none

/-- A command (R99). -/
def commandOf : List (List Char) → Option Instr
  | [m] =>
    if m = "NOP".toList then some .nop
    else if m = "DERIVE".toList then some .deriveDef
    else none
  | [m, n] =>
    if m = "DERIVE".toList then (argText n).map Instr.derive
    else if m = "VERIFY".toList then (argText n).map Instr.verify
    else none
  | _ => none

/-- The mnemonics of R100 and R101. -/
inductive LineKind where
  | rd
  | wr
  | cmd
  | load
  | loadz
  | absent
  | poll
  | wait
  | ack
deriving DecidableEq, Repr

def lineKind (m : List Char) : Option LineKind :=
  if m = "RD".toList then some .rd
  else if m = "WR".toList then some .wr
  else if m = "CMD".toList then some .cmd
  else if m = "LOAD".toList then some .load
  else if m = "LOADZ".toList then some .loadz
  else if m = "ABSENT".toList then some .absent
  else if m = "POLL".toList then some .poll
  else if m = "WAIT".toList then some .wait
  else if m = "ACK".toList then some .ack
  else none

/-- The inputs of a line, its mnemonic and its operands given.  A LOAD or LOADZ that would write past offset 0xFFFF is
refused, as a `WR` of such an offset is (log entry 18). -/
def lineInputs : LineKind → List (List Char) → Option (List Input)
  | .rd, [off] => (offsetText off).map fun a => [.bus (rd a)]
  | .wr, [off, v] =>
    match offsetText off, wordText v with
    | some a, some w => some [.bus (wr a w)]
    | _, _ => none
  | .cmd, ws => (commandOf ws).map progCmd
  | .load, s :: bytes =>
    match slotText s, bytesText bytes.flatten with
    | some x, some bs => if loadFits x bs.length then some (progLoad x bs) else none
    | _, _ => none
  | .loadz, [s, n] =>
    match slotText s, number n with
    | some x, some k => if loadFits x k then some (progLoadz x k) else none
    | _, _ => none
  | .absent, [s] => (slotText s).map progAbsent
  | .poll, [off, mask, val] =>
    match offsetText off, wordText mask, wordText val with
    | some a, some m, some v => some (progPoll a m v)
    | _, _, _ => none
  | .wait, [] => some progWait
  | .ack, [] => some progAck
  | _, _ => none

/-- One line; an empty one, or one with a comment alone, asks nothing. -/
def lineText (line : String) : Option (List Input) :=
  match tokens line with
  | [] => some []
  | m :: ws =>
    match lineKind m with
    | some k => lineInputs k ws
    | none => none

/-- A program: its lines in program order (R100). -/
def programText : List String → Option (List Input)
  | [] => some []
  | l :: ls =>
    match lineText l, programText ls with
    | some p, some q => some (p ++ q)
    | _, _ => none

end Sys2Proof.Machine
end

