-- ==== Sys2Proof/Machine/Step.lean ====
section
/-! DEFINITION. The step of the machine, and where it finds its next command.  HKX has no program counter
and fetches nothing (R21, R61): a command reaches it as the host's CMD write. -/

namespace Sys2Proof.Machine

/-- One step: one move of the host, the platform or the engine. -/
def step (s : State) : Host.Outcome State Fault Refusal := move s

/-- `s` with the CMD write of the command word as the host's next input (log entry 4).  A command is one
32-bit word, so the bits from `nbits` up are 0. -/
def State.withFetchWord (s : State) (nbits w : Nat) : State :=
  placeCmdWrite s (BitVec.ofNat 32 (w % 2 ^ nbits))

end Sys2Proof.Machine
end

