-- ==== Sys2Proof/Safety.lean ====
section
/-! DEFINITION. What the rules promise of every state HKX can be in, in the terms the statements use. -/

namespace Sys2Proof.Machine

/-- The offset of a byte of OUT (R64). -/
abbrev inOut (a : Nat) : Prop := outBase ≤ a ∧ a < outBase + outSize

/-- The offset of a mapped byte of a slot's window (R63). -/
abbrev inWin (cfg : Config) (s : Slot) (a : Nat) : Prop := winBase s ≤ a ∧ a < winBase s + cfg.cap s

/-- An offset that holds a byte: one of OUT or of a window below its capacity (R62). -/
abbrev mapped (cfg : Config) (a : Nat) : Prop :=
  inOut a ∨ inWin cfg .a a ∨ inWin cfg .b a ∨ inWin cfg .c a

/-- The pairs (ERR, ERR_ARG) that the table of R200 lists. -/
def listedResults : List (BitVec 4 × BitVec 3) :=
  [(errNone, argNone), (errType, argId .a), (errType, argId .b), (errType, argId .c),
   (errLength, argId .b), (errLength, argId .c), (errLength, argField), (errRange, argField),
   (errAuth, argId .c), (errCapacity, argId .a), (errCapacity, argId .b), (errCapacity, argId .c),
   (errIllegalCmd, argNone)]

/-- The invariant of the device under a configuration. -/
structure Hkx.Inv (cfg : Config) (d : Hkx) : Prop where
  /-- R6 to R8. -/
  capacities : cfg.wf
  /-- "`PEND ≠ none` exactly when BUSY = 1" (R39). -/
  pending : d.pend ≠ .none ↔ d.busy = true
  /-- "BUSY = 1 and DONE = 1 never hold together" (R28). -/
  notBusyAndDone : ¬ (d.busy = true ∧ d.done = true)
  /-- ERR is "0 while a DERIVE or VERIFY is pending" (R30), and so is ERR_ARG (R245). -/
  noErrorWhileBusy : d.busy = true → d.err = errNone ∧ d.errArg = argNone
  /-- Only the pairs of R200: "Codes 7 to 15 are never written", "Codes 5 to 7 are never written". -/
  listed : (d.err, d.errArg) ∈ listedResults
  /-- While a DERIVE is pending OUT_COUNT is 0 (R32). -/
  noChunksPending : ∀ n, d.pend = .derive n → d.outCount = 0#2
  /-- "OUT bytes at or beyond `32 × OUT_COUNT` are always zero" (R38). -/
  outTail : ∀ j, 32 * d.outCount.toNat ≤ j → j < outSize → d.mem.read (outBase + j) = 0#8
  /-- The memory is in its canonical form. -/
  canonical : d.mem.wf
  /-- No byte is held outside OUT and the windows (R62, R65). -/
  onlyMapped : ∀ x ∈ d.mem, mapped cfg x.1

/-- The invariant of the machine. -/
def State.Inv (s : State) : Prop := s.dev.Inv s.cfg

/-- The slots are all usable: what the guard asks (R116, R117). -/
def Hkx.operandsUsable (d : Hkx) (cfg : Config) : Prop :=
  ∀ s, d.present s = true ∧ d.len s ≤ cfg.cap s

/-- Byte `j` of chunk `k` of OUT (R64). -/
def Hkx.outByte (d : Hkx) (k j : Nat) : Byte := d.mem.read (outBase + 32 * k + j)

/-- Chunk `k` of the expansion, counting from 0: the message of round 1 is `info || [0x01]` (R138), that of
each later round the previous chunk, `info` and the round's counter byte (R139). -/
def expandChunk (h : Bytes → Bytes → Bytes32) (prk info : Bytes) : Nat → Bytes32
  | 0 => h prk (info ++ [0x01#8])
  | k + 1 => h prk ((expandChunk h prk info k).toList ++ info ++ [BitVec.ofNat 8 (k + 2)])

/-- What makes a transaction a bus error: (a) to (f) of R206. -/
def busErrorCause (s : State) (t : Transaction) : Prop :=
  t.size ≠ 4#3 ∨ t.addr.toNat % 4 ≠ 0 ∨ decodeAddr t.addr = .reserved ∨
  (∃ x o, decodeAddr t.addr = .win x o ∧ s.cfg.cap x ≤ o) ∨
  (t.kind = .write ∧ (decodeAddr t.addr = .reg .id ∨ (∃ x, decodeAddr t.addr = .reg (.cap x)) ∨
    ∃ o, decodeAddr t.addr = .out o)) ∨
  (t.kind = .write ∧ s.dev.busy = true)

/-- The first failure of the guard in the order of R202, or what comes after the guard. -/
def afterGuard (cfg : Config) (d : Hkx) (rest : BitVec 4 × BitVec 3) : BitVec 4 × BitVec 3 :=
  if d.present .a = false then (1#4, 1#3)
  else if d.len .a > cfg.cap .a then (5#4, 1#3)
  else if d.present .b = false then (1#4, 2#3)
  else if d.len .b > cfg.cap .b then (5#4, 2#3)
  else if d.present .c = false then (1#4, 3#3)
  else if d.len .c > cfg.cap .c then (5#4, 3#3)
  else rest

end Sys2Proof.Machine
end

