-- ==== Sys2Proof/Certificates/Slice0/Obligations.lean ====
section
/-! DEFINITION. The statements for the provers.  Each docstring names the rules of spec/ it formalises.  A
statement about every state is a statement about every configuration, every queue of inputs and every
schedule, since all three are data in the state (log entries 1, 4 and 5). -/

open Sys2Proof Sys2Proof.Machine

/-! ## Encoding -/

/-- R96, R99: decoding an encoded command gives it back with every value of ARG, and a word that decodes to a
command is that command's only word.  (R99's words are those of `encode`.) -/
def Obligations.DecodeInvertsEncode : Prop :=
  (∀ i : Instr, i.wf = true → decode (encode i) = .ok i) ∧
  (∀ (w : Word) (i : Instr), decode w = .ok i → encode i = w)

/-- R96: a word decodes to a command exactly when it selects the command's row, ARG being w[15:8]; the rows
are disjoint; and a word no row selects is ILLEGAL. -/
def Obligations.OpcodeRowsSelectTheCommand : Prop :=
  ∀ w : Word,
    (decode w = .ok .nop ↔ w &&& 0xFFFFFFFF#32 = 0x00000000#32) ∧
    (decode w = .ok .deriveDef ↔ w &&& 0xFFFFFFFF#32 = 0x00000001#32) ∧
    (∀ n, decode w = .ok (.derive n) ↔ w &&& 0xFFFF00FF#32 = 0x00010001#32 ∧ n = w.extractLsb' 8 8) ∧
    (∀ n, decode w = .ok (.verify n) ↔ w &&& 0xFFFF00FF#32 = 0x00010002#32 ∧ n = w.extractLsb' 8 8) ∧
    (∀ r ∈ opcodeRows, ∀ r' ∈ opcodeRows, r.selects w = true → r'.selects w = true → r = r') ∧
    ((∃ why, decode w = .error why) ↔ ∀ r ∈ opcodeRows, r.selects w = false)

/-- R97: the ILLEGAL words are exactly those of its list, and writing one to CMD while idle completes at once
with ERR = ILLEGAL_CMD and ERR_ARG = 0, changing nothing else. -/
def Obligations.IllegalWordsAreTheListedOnes : Prop :=
  ∀ w : Word,
    ((∃ why, decode w = .error why) ↔
      (3 ≤ (w.extractLsb' 0 8).toNat ∨
       w.extractLsb' 17 15 ≠ 0#15 ∨
       (w.extractLsb' 0 8 = 0#8 ∧ (w.extractLsb' 8 8 ≠ 0#8 ∨ w.getLsbD 16 = true)) ∨
       (w.extractLsb' 0 8 = 1#8 ∧ w.getLsbD 16 = false ∧ w.extractLsb' 8 8 ≠ 0#8) ∨
       (w.extractLsb' 0 8 = 2#8 ∧ w.getLsbD 16 = false))) ∧
    ∀ s : State, s.dev.busy = false → (∃ why, decode w = .error why) →
      hostStep s (wr 0x0010#16 w) =
        .next { s with dev := { s.dev with err := 6#4, errArg := 0#3, done := true },
                       lastResp := some ⟨.okay, 0#32⟩ }

/-- Words written out from R92 and R96, as the decode vectors of 95_test_vectors.md section 3 list them. -/
def Obligations.WrittenWordsDecode : Prop :=
  decode 0x00000000#32 = .ok .nop ∧ decode 0x00000001#32 = .ok .deriveDef ∧
  decode 0x00010001#32 = .ok (.derive 0#8) ∧ decode 0x00010301#32 = .ok (.derive 3#8) ∧
  decode 0x0001FF01#32 = .ok (.derive 255#8) ∧ decode 0x00011002#32 = .ok (.verify 16#8) ∧
  decode 0x00000002#32 = .error .verifyNotGiven ∧ decode 0x00000101#32 = .error .deriveArgNotGiven ∧
  decode 0x00020001#32 = .error .reservedBits ∧ decode 0x00010003#32 = .error .reservedOp ∧
  decode 0x00010000#32 = .error .nopWithOperand

/-- R22, R62, R63, R64, R65: the address map, both ways, and exactly which aligned offsets are reserved in it. -/
def Obligations.AddressMapIsTheListedOne : Prop :=
  ∀ a : Addr,
    (decodeAddr a ≠ .reserved → encodeRegion (decodeAddr a) = some a) ∧
    (∀ r, decodeAddr a = .reg r ↔ a.toNat = regOffset r) ∧
    (∀ o, decodeAddr a = .out o ↔ a.toNat = 0x0100 + o ∧ o < 96) ∧
    (∀ o, decodeAddr a = .win .b o ↔ a.toNat = 0x1000 + o ∧ o < 0x1000) ∧
    (∀ o, decodeAddr a = .win .c o ↔ a.toNat = 0x2000 + o ∧ o < 0x1000) ∧
    (∀ o, decodeAddr a = .win .a o ↔ a.toNat = 0x8000 + o ∧ o < 0x8000) ∧
    (a.toNat % 4 = 0 →
      (decodeAddr a = .reserved ↔
        a.toNat = 0x001C ∨ (0x002C ≤ a.toNat ∧ a.toNat ≤ 0x00FF) ∨ (0x0160 ≤ a.toNat ∧ a.toNat ≤ 0x0FFF) ∨
        (0x3000 ≤ a.toNat ∧ a.toNat ≤ 0x7FFF)))

/-! ## The host port -/

/-- R206: a transaction is a bus error exactly when one of (a) to (f) holds; its whole effect is BERR and an
ERROR response with rdata 0; every other transaction answers OKAY, a write with rdata 0 (R91). -/
def Obligations.BusErrorsAreExactlyTheListedCauses : Prop :=
  ∀ (s : State) (t : Transaction),
    (busErrorCause s t →
      hostStep s t = .next { s with dev := { s.dev with berr := true }, lastResp := some ⟨.error, 0#32⟩ }) ∧
    (¬ busErrorCause s t →
      ∃ s' v, hostStep s t = .next s' ∧ s'.lastResp = some ⟨.okay, v⟩ ∧ (t.kind = .write → v = 0#32))

/-- R23, R24, R25: ID, CAP_x and CMD, read and written.  (The capacities are within R6 to R8.) -/
def Obligations.ConstantAndCommandRegisters : Prop :=
  ∀ s : State, s.cfg.wf →
    hostStep s (rd 0x0000#16) = .next { s with lastResp := some ⟨.okay, 0x484B4446#32⟩ } ∧
    (∀ x, ∃ v : Word, hostStep s (rd (BitVec.ofNat 16 (regOffset (.cap x)))) = .next { s with lastResp := some ⟨.okay, v⟩ } ∧
      (v.extractLsb' 0 16).toNat = s.cfg.cap x ∧ v.extractLsb' 16 16 = 0#16) ∧
    hostStep s (rd 0x0010#16) = .next { s with lastResp := some ⟨.okay, 0#32⟩ } ∧
    (∀ w, hostStep s (wr 0x0000#16 w) =
      .next { s with dev := { s.dev with berr := true }, lastResp := some ⟨.error, 0#32⟩ }) ∧
    (∀ x w, hostStep s (wr (BitVec.ofNat 16 (regOffset (.cap x))) w) =
      .next { s with dev := { s.dev with berr := true }, lastResp := some ⟨.error, 0#32⟩ }) ∧
    (∀ w, s.dev.busy = false →
      (∀ i, decode w = .ok i → hostStep s (wr 0x0010#16 w) = exec i s) ∧
      (∀ why, decode w = .error why → hostStep s (wr 0x0010#16 w) = execIllegal s)) ∧
    (∀ w, s.dev.busy = true → hostStep s (wr 0x0010#16 w) =
      .next { s with dev := { s.dev with berr := true }, lastResp := some ⟨.error, 0#32⟩ })

/-- R26: what STATUS reads, field by field; what a write clears while BUSY = 0; a write while BUSY = 1 is a bus
error; STATUS is 0 at reset. -/
def Obligations.StatusReadsAndClears : Prop :=
  (∀ s : State, ∃ v : Word,
    hostStep s (rd 0x0014#16) = .next { s with lastResp := some ⟨.okay, v⟩ } ∧
    v.getLsbD 0 = s.dev.busy ∧ v.getLsbD 1 = s.dev.done ∧ v.getLsbD 2 = s.dev.berr ∧
    v.extractLsb' 3 5 = 0#5 ∧ v.extractLsb' 8 4 = s.dev.err ∧ v.extractLsb' 12 3 = s.dev.errArg ∧
    v.getLsbD 15 = false ∧ v.extractLsb' 16 2 = s.dev.outCount ∧ v.extractLsb' 18 14 = 0#14) ∧
  (∀ (s : State) (w : Word), s.dev.busy = false →
    hostStep s (wr 0x0014#16 w) =
      .next { s with dev := { s.dev with done := if w.getLsbD 1 then false else s.dev.done,
                                         berr := if w.getLsbD 2 then false else s.dev.berr },
                     lastResp := some ⟨.okay, 0#32⟩ }) ∧
  (∀ (s : State) (w : Word), s.dev.busy = true →
    hostStep s (wr 0x0014#16 w) =
      .next { s with dev := { s.dev with berr := true }, lastResp := some ⟨.error, 0#32⟩ }) ∧
  hostStep State.reset (rd 0x0014#16) = .next { State.reset with lastResp := some ⟨.okay, 0#32⟩ }

/-- R33: IRQ_EN, read and written, and its reset value. -/
def Obligations.InterruptEnableReadsAndWrites : Prop :=
  (∀ s : State, ∃ v : Word,
    hostStep s (rd 0x0018#16) = .next { s with lastResp := some ⟨.okay, v⟩ } ∧
    v.getLsbD 0 = s.dev.ie ∧ v.extractLsb' 1 31 = 0#31) ∧
  (∀ (s : State) (w : Word), s.dev.busy = false →
    hostStep s (wr 0x0018#16 w) =
      .next { s with dev := { s.dev with ie := w.getLsbD 0 }, lastResp := some ⟨.okay, 0#32⟩ }) ∧
  (∀ (s : State) (w : Word), s.dev.busy = true →
    hostStep s (wr 0x0018#16 w) =
      .next { s with dev := { s.dev with berr := true }, lastResp := some ⟨.error, 0#32⟩ }) ∧
  State.reset.dev.ie = false

/-- R34: A_LEN, B_LEN and C_LEN, read and written; a write changes LEN and PRESENT of its slot and nothing else,
no value is refused, and a LEN above the capacity fails the guard of its slot with CAPACITY; a write while
BUSY = 1 is a bus error; LEN and PRESENT are 0 at reset. -/
def Obligations.LengthRegistersReadAndWrite : Prop :=
  (∀ (s : State) (x : Slot), ∃ v : Word,
    hostStep s (rd (BitVec.ofNat 16 (regOffset (.len x)))) = .next { s with lastResp := some ⟨.okay, v⟩ } ∧
    v.extractLsb' 0 16 = (s.dev.slot x).len ∧ v.extractLsb' 16 15 = 0#15 ∧ v.getLsbD 31 = (s.dev.slot x).present) ∧
  (∀ (s : State) (x : Slot) (w : Word), s.dev.busy = false → ∃ t,
    hostStep s (wr (BitVec.ofNat 16 (regOffset (.len x))) w) = .next t ∧
    t.dev.slot x = ⟨w.extractLsb' 0 16, w.getLsbD 31⟩ ∧ (∀ y, y ≠ x → t.dev.slot y = s.dev.slot y) ∧
    t = { s with dev := { s.dev with lenA := t.dev.lenA, lenB := t.dev.lenB, lenC := t.dev.lenC },
                 lastResp := some ⟨.okay, 0#32⟩ } ∧
    (w.getLsbD 31 = true → (w.extractLsb' 0 16).toNat > s.cfg.cap x →
      t.dev.guard1 t.cfg x = some (5#4, argId x))) ∧
  (∀ (s : State) (x : Slot) (w : Word), s.dev.busy = true →
    hostStep s (wr (BitVec.ofNat 16 (regOffset (.len x))) w) =
      .next { s with dev := { s.dev with berr := true }, lastResp := some ⟨.error, 0#32⟩ }) ∧
  (∀ x, State.reset.dev.slot x = ⟨0#16, false⟩)

/-- R70: a window write while BUSY = 0 stores the word's four bytes at the window's offset, low byte first, and
changes nothing else: not another byte, not LEN, not PRESENT. -/
def Obligations.WindowWriteStoresTheWord : Prop :=
  ∀ (s : State) (x : Slot) (o : Nat) (w : Word),
    s.cfg.wf → s.dev.mem.wf → s.dev.busy = false → o % 4 = 0 → o < s.cfg.cap x →
    ∃ t, hostStep s (wr (BitVec.ofNat 16 (winBase x + o)) w) = .next t ∧
      (∀ j, j < 4 → t.dev.mem.read (winBase x + o + j) = w.extractLsb' (8 * j) 8) ∧
      (∀ a, a < winBase x + o ∨ winBase x + o + 4 ≤ a → t.dev.mem.read a = s.dev.mem.read a) ∧
      t = { s with dev := { s.dev with mem := t.dev.mem }, lastResp := some ⟨.okay, 0#32⟩ }

/-- R67, R71: a read of a window or of OUT, busy or not, answers the four bytes there, the lowest offset in bits
7:0, and has no side effect. -/
def Obligations.WindowAndOutReadsAreLittleEndian : Prop :=
  (∀ (s : State) (x : Slot) (o : Nat), s.cfg.wf → o % 4 = 0 → o < s.cfg.cap x →
    ∃ v : Word, hostStep s (rd (BitVec.ofNat 16 (winBase x + o))) = .next { s with lastResp := some ⟨.okay, v⟩ } ∧
      ∀ j, j < 4 → v.extractLsb' (8 * j) 8 = s.dev.mem.read (winBase x + o + j)) ∧
  (∀ (s : State) (o : Nat), o % 4 = 0 → o < 96 →
    ∃ v : Word, hostStep s (rd (BitVec.ofNat 16 (0x0100 + o))) = .next { s with lastResp := some ⟨.okay, v⟩ } ∧
      ∀ j, j < 4 → v.extractLsb' (8 * j) 8 = s.dev.mem.read (0x0100 + o + j))

/-- R76 at one word of a window: a read answers what the latest write to it left, whatever is written to
another word in between. -/
def Obligations.WindowReadAnswersTheLatestWrite : Prop :=
  ∀ (s : State) (x y : Slot) (o p : Nat) (v w : Word),
    s.cfg.wf → s.dev.mem.wf → s.dev.busy = false →
    o % 4 = 0 → o < s.cfg.cap x → p % 4 = 0 → p < s.cfg.cap y → (x ≠ y ∨ o ≠ p) →
    ∃ s1 s2 s3, hostStep s (wr (BitVec.ofNat 16 (winBase x + o)) v) = .next s1 ∧
      hostStep s1 (wr (BitVec.ofNat 16 (winBase y + p)) w) = .next s2 ∧
      hostStep s2 (rd (BitVec.ofNat 16 (winBase x + o))) = .next s3 ∧ s3.lastResp = some ⟨.okay, v⟩

/-- R74: no read has a side effect on the device unless it is a bus error, which sets BERR; every transaction but
a CMD write leaves the same state done twice as done once; and a CMD write that issues DERIVE or VERIFY makes a
second one a bus error. -/
def Obligations.TransactionsAreIdempotentButForCommands : Prop :=
  (∀ (s t : State) (x : Transaction), x.kind = .read → hostStep s x = .next t →
    t.dev = s.dev ∨ (busErrorCause s x ∧ t.dev = { s.dev with berr := true })) ∧
  (∀ (s t : State) (x : Transaction), s.dev.mem.wf →
    ¬ (x.kind = .write ∧ decodeAddr x.addr = .reg .cmd) → hostStep s x = .next t → hostStep t x = .next t) ∧
  (∀ (s : State) (w w' : Word) (i : Instr), s.dev.busy = false → decode w = .ok i → i ≠ .nop →
    ∃ t, hostStep s (wr 0x0010#16 w) = .next t ∧
      hostStep t (wr 0x0010#16 w') =
        .next { t with dev := { t.dev with berr := true }, lastResp := some ⟨.error, 0#32⟩ })

/-- R43, the writers of each piece of state: a transaction that is no CMD write, then a command at its issue, then
the engine step.  The configuration is written by none (R42). -/
def Obligations.EachPieceOfStateHasItsWriters : Prop :=
  (∀ (s t : State) (x : Transaction), ¬ (x.kind = .write ∧ decodeAddr x.addr = .reg .cmd) → hostStep s x = .next t →
    t.cfg = s.cfg ∧ t.dev.busy = s.dev.busy ∧ t.dev.pend = s.dev.pend ∧ t.dev.err = s.dev.err ∧
    t.dev.errArg = s.dev.errArg ∧ t.dev.outCount = s.dev.outCount ∧
    (t.dev.done = true → s.dev.done = true) ∧
    ∀ a, inOut a → t.dev.mem.read a = s.dev.mem.read a) ∧
  (∀ (s t : State) (w : Word), s.dev.busy = false → hostStep s (wr 0x0010#16 w) = .next t →
    t.cfg = s.cfg ∧ t.dev.berr = s.dev.berr ∧ t.dev.ie = s.dev.ie ∧ t.dev.slot = s.dev.slot ∧
    (∀ a, ¬ inOut a → t.dev.mem.read a = s.dev.mem.read a) ∧
    ((∀ n, decode w ≠ .ok (.derive n)) → decode w ≠ .ok .deriveDef →
      t.dev.outCount = s.dev.outCount ∧ t.dev.mem = s.dev.mem)) ∧
  (∀ s t : State, engineStep s = .next t →
    t.cfg = s.cfg ∧ t.dev.berr = s.dev.berr ∧ t.dev.ie = s.dev.ie ∧ t.dev.slot = s.dev.slot ∧
    (∀ a, ¬ inOut a → t.dev.mem.read a = s.dev.mem.read a) ∧
    ((∀ n, s.dev.pend ≠ .derive n) → t.dev.outCount = s.dev.outCount ∧ t.dev.mem = s.dev.mem))

/-! ## The commands -/

/-- R111: NOP, issued while BUSY = 0 by writing its word, is `ExecNop`: ERR = 0, ERR_ARG = 0, DONE = 1, an OKAY
response, nothing else changed; `irq` is then IE. -/
def Obligations.NopCompletesAtOnce : Prop :=
  ∀ s : State, s.dev.busy = false →
    exec .nop s = .next { s with dev := { s.dev with err := 0#4, errArg := 0#3, done := true },
                                 lastResp := some ⟨.okay, 0#32⟩ } ∧
    hostStep s (wr 0x0010#16 0x00000000#32) = exec .nop s ∧
    ∀ t, exec .nop s = .next t → t.dev.irq = s.dev.ie

/-- R112: a word that decodes to no command, written while BUSY = 0, is `ExecIllegal`: ERR = 6, ERR_ARG = 0,
DONE = 1, an OKAY response, nothing else changed. -/
def Obligations.IllegalCompletesAtOnce : Prop :=
  ∀ (s : State) (w : Word) (why : IllegalWord), s.dev.busy = false → decode w = .error why →
    hostStep s (wr 0x0010#16 w) =
      .next { s with dev := { s.dev with err := 6#4, errArg := 0#3, done := true },
                     lastResp := some ⟨.okay, 0#32⟩ }

/-- R113: the issue of DERIVE, DERIVE.DEF and VERIFY while BUSY = 0 is `Start`, and nothing else changes. -/
def Obligations.IssueStartsThePendingCommand : Prop :=
  ∀ s : State, s.dev.busy = false →
    (∀ n, exec (.verify n) s =
      .next { s with dev := { s.dev with busy := true, done := false, err := 0#4, errArg := 0#3, pend := .verify n },
                     lastResp := some ⟨.okay, 0#32⟩ }) ∧
    (∀ i n, (i = .derive n ∨ i = .deriveDef ∧ n = 3#8) → ∃ t, exec i s = .next t ∧
      t = { s with dev := { s.dev with busy := true, done := false, err := 0#4, errArg := 0#3, pend := .derive n,
                                       outCount := 0#2, mem := t.dev.mem },
                   lastResp := some ⟨.okay, 0#32⟩ } ∧
      ∀ a, t.dev.mem.read a = if 0x0100 ≤ a ∧ a < 0x0160 then 0#8 else s.dev.mem.read a)

/-- R110, R205, R206(f): while BUSY = 1 every command is turned away with a bus error, and the pending command
goes on unchanged. -/
def Obligations.BusyTurnsEveryCommandAway : Prop :=
  ∀ (s : State) (i : Instr), s.dev.busy = true →
    exec i s = .next { s with dev := { s.dev with berr := true }, lastResp := some ⟨.error, 0#32⟩ } ∧
    hostStep s (wr 0x0010#16 (encode i)) = exec i s

/-- R202 with R115 to R117, R132, R133, R153, R154, R156: the one error a command reports.  An ILLEGAL word at
decode; then, in the engine step, the guard in the order A, B, C, each slot TYPE before CAPACITY; then LENGTH(B)
and RANGE(ARG) for DERIVE; LENGTH(C), LENGTH(ARG) and AUTH for VERIFY. -/
def Obligations.CommandReportsTheFirstError : Prop :=
  (∀ (s t : State) (w : Word) (why : IllegalWord), s.dev.busy = false → decode w = .error why →
    hostStep s (wr 0x0010#16 w) = .next t → (t.dev.err, t.dev.errArg) = (6#4, 0#3)) ∧
  (∀ (s : State) (n : Byte), s.dev.pend = .derive n → ∃ t, engineStep s = .next t ∧
    t.dev.busy = false ∧ t.dev.done = true ∧ t.dev.pend = .none ∧
    (t.dev.err, t.dev.errArg) = afterGuard s.cfg s.dev
      (if s.dev.len .b ≠ 32 then (2#4, 2#3) else if n.toNat < 1 ∨ n.toNat > 3 then (3#4, 4#3) else (0#4, 0#3))) ∧
  (∀ (s : State) (n : Byte), s.dev.pend = .verify n → ∃ t, engineStep s = .next t ∧
    t.dev.busy = false ∧ t.dev.done = true ∧ t.dev.pend = .none ∧
    (t.dev.err, t.dev.errArg) = afterGuard s.cfg s.dev
      (if s.dev.len .c ≠ n.toNat then (2#4, 3#3)
       else if n.toNat > 32 then (2#4, 4#3)
       else if s.dev.bytes .c ≠ (hmac s.cfg.hmac (s.dev.bytes .b) (s.dev.bytes .a)).toList.take n.toNat then (4#4, 3#3)
       else (0#4, 0#3)))

/-- R201: a command that ends in an error changes nothing but ERR, ERR_ARG, BUSY, DONE and PEND. -/
def Obligations.FailedCommandChangesNothingElse : Prop :=
  ∀ s t : State, engineStep s = .next t → t.dev.err ≠ 0#4 →
    t = { s with dev := { s.dev with err := t.dev.err, errArg := t.dev.errArg, busy := false, done := true,
                                     pend := .none } }

/-- R131, R134, R135, R138, R139: the engine step of a DERIVE that passes its checks writes the chunks computed
by HMAC into OUT and `n` into OUT_COUNT, and changes nothing else but what `Complete` writes. -/
def Obligations.DeriveStoresItsChunks : Prop :=
  ∀ (s : State) (n : Byte), s.dev.mem.wf → s.dev.pend = .derive n → s.dev.operandsUsable s.cfg →
    s.dev.len .b = 32 → 1 ≤ n.toNat → n.toNat ≤ 3 →
    ∃ (t : State) (prk c0 c1 c2 : Bytes32),
      prk = hmac s.cfg.hmac (s.dev.bytes .b) (s.dev.bytes .a) ∧
      c0 = hmac s.cfg.hmac prk.toList (s.dev.bytes .c ++ [0x01#8]) ∧
      c1 = hmac s.cfg.hmac prk.toList (c0.toList ++ s.dev.bytes .c ++ [0x02#8]) ∧
      c2 = hmac s.cfg.hmac prk.toList (c1.toList ++ s.dev.bytes .c ++ [0x03#8]) ∧
      engineStep s = .next t ∧
      t = { s with dev := { s.dev with busy := false, done := true, err := 0#4, errArg := 0#3, pend := .none,
                                       outCount := BitVec.ofNat 2 n.toNat, mem := t.dev.mem } } ∧
      (∀ j (hj : j < 32), t.dev.mem.read (0x0100 + j) = c0[j]) ∧
      (2 ≤ n.toNat → ∀ j (hj : j < 32), t.dev.mem.read (0x0120 + j) = c1[j]) ∧
      (3 ≤ n.toNat → ∀ j (hj : j < 32), t.dev.mem.read (0x0140 + j) = c2[j]) ∧
      (∀ a, ¬ (0x0100 ≤ a ∧ a < 0x0100 + 32 * n.toNat) → t.dev.mem.read a = s.dev.mem.read a)

/-- R135: the engine step of a DERIVE, in a state of the invariant.  On success with chunk count `n`, OUT holds the
`n` chunks and zeros after them and OUT_COUNT is n; on any failure OUT is all zero and OUT_COUNT is 0. -/
def Obligations.DeriveOutputIsWholeOrZero : Prop :=
  ∀ (s : State) (n : Byte), s.Inv → s.dev.pend = .derive n →
    ∃ t, engineStep s = .next t ∧
      (t.dev.err = 0#4 →
        t.dev.outCount.toNat = n.toNat ∧
        (∀ k, k < n.toNat → ∀ j (hj : j < 32), t.dev.mem.read (0x0100 + 32 * k + j) =
          (expandChunk (hmac s.cfg.hmac) (hmac s.cfg.hmac (s.dev.bytes .b) (s.dev.bytes .a)).toList (s.dev.bytes .c) k)[j]) ∧
        (∀ a, 0x0100 + 32 * n.toNat ≤ a → a < 0x0160 → t.dev.mem.read a = 0#8)) ∧
      (t.dev.err ≠ 0#4 → t.dev.outCount = 0#2 ∧ ∀ a, 0x0100 ≤ a → a < 0x0160 → t.dev.mem.read a = 0#8)

/-- R136, R137, R130 to R135: DERIVE and DERIVE.DEF from issue to completion.  From an idle state with usable
operands, a 32-byte salt and a chunk count of 1 to 3, the CMD write is accepted and the engine step that follows
ends with ERR = 0, the `n` chunks in OUT, zeros after them, OUT_COUNT = n, and everything else as it was. -/
def Obligations.DeriveCompletesWithItsChunks : Prop :=
  ∀ (s : State) (i : Instr) (n : Byte), s.dev.mem.wf → s.dev.busy = false → s.dev.operandsUsable s.cfg →
    s.dev.len .b = 32 → 1 ≤ n.toNat → n.toNat ≤ 3 → (i = .derive n ∨ i = .deriveDef ∧ n = 3#8) →
    ∃ t u : State, exec i s = .next t ∧ t.dev.busy = true ∧ t.dev.pend = .derive n ∧ engineStep t = .next u ∧
      u = { s with dev := { s.dev with busy := false, done := true, err := 0#4, errArg := 0#3, pend := .none,
                                       outCount := BitVec.ofNat 2 n.toNat, mem := u.dev.mem },
                   lastResp := some ⟨.okay, 0#32⟩ } ∧
      (∀ k, k < n.toNat → ∀ j (hj : j < 32), u.dev.outByte k j =
        (expandChunk (hmac s.cfg.hmac) (hmac s.cfg.hmac (s.dev.bytes .b) (s.dev.bytes .a)).toList (s.dev.bytes .c) k)[j]) ∧
      (∀ a, 0x0100 + 32 * n.toNat ≤ a → a < 0x0160 → u.dev.mem.read a = 0#8) ∧
      (∀ a, ¬ inOut a → u.dev.mem.read a = s.dev.mem.read a)

/-- R157, R158, R151 to R156: VERIFY from issue to completion, on every idle state.  The CMD write is accepted, and
the engine step that follows writes ERR and ERR_ARG and nothing else: OUT, OUT_COUNT and the slots are as they
were. -/
def Obligations.VerifyCompletesWithItsResult : Prop :=
  ∀ (s : State) (n : Byte), s.dev.busy = false →
    ∃ t u : State, exec (.verify n) s = .next t ∧ t.dev.busy = true ∧ t.dev.pend = .verify n ∧ engineStep t = .next u ∧
      u = { s with dev := { s.dev with busy := false, done := true, pend := .none, err := u.dev.err,
                                       errArg := u.dev.errArg },
                   lastResp := some ⟨.okay, 0#32⟩ } ∧
      (u.dev.err, u.dev.errArg) = afterGuard s.cfg s.dev
        (if s.dev.len .c ≠ n.toNat then (2#4, 3#3)
         else if n.toNat > 32 then (2#4, 4#3)
         else if s.dev.bytes .c ≠ (hmac s.cfg.hmac (s.dev.bytes .b) (s.dev.bytes .a)).toList.take n.toNat then (4#4, 3#3)
         else (0#4, 0#3))

/-- R159: with 1 ≤ length ≤ 32 and a mac of `length` bytes, VERIFY succeeds when the mac is the truncated tag; a mac
that differs from it in one bit (bit `b` of byte `i`) gives AUTH. -/
def Obligations.VerifyAcceptsTheTagAndNoFlippedBit : Prop :=
  ∀ (s : State) (n : Byte), s.dev.pend = .verify n → s.dev.operandsUsable s.cfg →
    1 ≤ n.toNat → n.toNat ≤ 32 →
    (s.dev.bytes .c = (hmac s.cfg.hmac (s.dev.bytes .b) (s.dev.bytes .a)).toList.take n.toNat →
      ∃ t, engineStep s = .next t ∧ t.dev.err = 0#4 ∧ t.dev.errArg = 0#3) ∧
    (∀ (tag : Bytes) (i b : Nat) (hi : i < tag.length), b < 8 →
      tag = (hmac s.cfg.hmac (s.dev.bytes .b) (s.dev.bytes .a)).toList.take n.toNat →
      s.dev.bytes .c = tag.set i (tag[i] ^^^ BitVec.twoPow 8 b) →
      ∃ t, engineStep s = .next t ∧ t.dev.err = 4#4 ∧ t.dev.errArg = 3#3)

/-- R155: `length = 0`.  A present, empty mac succeeds for every data and key; a mac that is not empty fails with
LENGTH(C). -/
def Obligations.VerifyOfLengthZero : Prop :=
  ∀ s : State, s.dev.pend = .verify 0#8 → s.dev.operandsUsable s.cfg →
    ∃ t, engineStep s = .next t ∧
      (s.dev.len .c = 0 → t.dev.err = 0#4 ∧ t.dev.errArg = 0#3) ∧
      (s.dev.len .c ≠ 0 → t.dev.err = 2#4 ∧ t.dev.errArg = 3#3)

/-- R154: every length from 33 to 255 fails with LENGTH, whatever the mac: LENGTH(ARG) when LEN(C) is the length. -/
def Obligations.VerifyOfLengthOverThirtyTwo : Prop :=
  ∀ (s : State) (n : Byte), s.dev.pend = .verify n → s.dev.operandsUsable s.cfg → 32 < n.toNat →
    ∃ t, engineStep s = .next t ∧ t.dev.err = 2#4 ∧
      (s.dev.len .c = n.toNat → t.dev.errArg = 4#3)

/-- R14, R156: bit `b` of the comparator's accumulator is the OR, over every byte pair, of bit `b` of the pair's
XOR: every pair counts; and `CTEQ` is true when every pair's XOR is 0. -/
def Obligations.ComparatorFoldsEveryPair : Prop :=
  ∀ (x y : Bytes) (h : x.length = y.length) (b : Nat), b < 8 →
    ((cmpAcc 0#8 x y).getLsbD b = true ↔
      ∃ (i : Nat) (hi : i < x.length), (x[i] ^^^ y[i]'(h ▸ hi)).getLsbD b = true) ∧
    (ctEq x y = true ↔ ∀ (i : Nat) (hi : i < x.length), x[i] ^^^ y[i]'(h ▸ hi) = 0#8)

/-- R131, R138, R139: for every HMAC function, `DeriveFn` is the first `n` chunks of the expansion keyed by
PRK = HMAC(salt, input). -/
def Obligations.DeriveFnIsTheExpansion : Prop :=
  ∀ (h : Bytes → Bytes → Bytes32) (input salt info : Bytes) (n : Nat), 1 ≤ n → n ≤ 3 →
    deriveFn h input salt info n = (List.range n).map (expandChunk h (h salt input).toList info)

/-- R140: for every `1 ≤ m ≤ n ≤ 3`, the chunks of `m` are the first `m` chunks of `n`. -/
def Obligations.FewerChunksAreAPrefix : Prop :=
  ∀ (h : Bytes → Bytes → Bytes32) (input salt info : Bytes) (m n : Nat), 1 ≤ m → m ≤ n → n ≤ 3 →
    deriveFn h input salt info m = (deriveFn h input salt info n).take m

/-- R35, R81, R122, R247: the result of a command is a function of the command, LEN, PRESENT, the window bytes
below LEN and the configuration.  Two states of the invariant that agree on these end with the same ERR, ERR_ARG
and STATUS bits, and, for DERIVE, the same OUT_COUNT and OUT. -/
def Obligations.ResultDependsOnTheOperandsAlone : Prop :=
  ∀ s s' t t' : State, s.Inv → s'.Inv → s.cfg = s'.cfg → s.dev.pend = s'.dev.pend → s.dev.slot = s'.dev.slot →
    (∀ x j, j < s.dev.len x → j < s.cfg.cap x →
      s.dev.mem.read (winBase x + j) = s'.dev.mem.read (winBase x + j)) →
    engineStep s = .next t → engineStep s' = .next t' →
    t.dev.err = t'.dev.err ∧ t.dev.errArg = t'.dev.errArg ∧ t.dev.busy = t'.dev.busy ∧ t.dev.done = t'.dev.done ∧
    t.dev.pend = t'.dev.pend ∧
    (∀ n, s.dev.pend = .derive n →
      t.dev.outCount = t'.dev.outCount ∧ ∀ a, inOut a → t.dev.mem.read a = t'.dev.mem.read a)

/-! ## Steps -/

/-- R72, R110: when the host's next move is a CMD write whose word decodes to a command, the step is `exec` of it
on the state with that input taken from the queue (and, while BUSY = 1, the turn used up that gave the host the
move); a word that decodes to none is ILLEGAL.  (The queue and the turns are the model's: log entries 4 and 5.) -/
def Obligations.StepRunsTheDecodedCommand : Prop :=
  ∀ (s : State) (w : Word) (rest : List Input), s.inputs = .bus (wr 0x0010#16 w) :: rest →
    (∀ i, decode w = .ok i →
      (s.dev.busy = false → step s = exec i { s with inputs := rest }) ∧
      (∀ ts, s.dev.busy = true → s.turns = .host :: ts → step s = exec i { s with inputs := rest, turns := ts })) ∧
    (∀ why, decode w = .error why → s.dev.busy = false → step s = execIllegal { s with inputs := rest })

/-- R73, R76, R120: the moves of the two agents.  While BUSY = 0 the engine does nothing and the outside takes its
next transaction; while BUSY = 1 the engine step is taken when the host has nothing left or the schedule says so, and the
host's next transaction when the schedule gives it the turn.  A poll's
turn is the next statement and a reset's is ResetAbandonsThePendingCommand.  (The queue and the schedule are the model's,
log entries 4 and 5, and so is that a step with BUSY = 0 and no input left changes nothing, log entry 7, read from
R217.) -/
def Obligations.StepFollowsTheSchedule : Prop :=
  ∀ s : State,
    (s.dev.busy = false → s.inputs = [] → step s = .next s) ∧
    (∀ t rest, s.dev.busy = false → s.inputs = .bus t :: rest → step s = hostStep { s with inputs := rest } t) ∧
    (s.dev.busy = true → s.inputs = [] ∨ s.turns = [] → step s = engineStep s) ∧
    (∀ ts, s.dev.busy = true → s.inputs ≠ [] → s.turns = .engine :: ts → step s = engineStep { s with turns := ts }) ∧
    (∀ t rest ts, s.dev.busy = true → s.inputs = .bus t :: rest → s.turns = .host :: ts →
      step s = hostStep { s with inputs := rest, turns := ts } t)

/-- R101, POLL, on every turn that is the outside's: every one while BUSY = 0, and while BUSY = 1 the host's turns of
the schedule.  The poll makes one read, an OKAY or an ERROR response whose rdata is then 0, and leaves the queue exactly
when the masked rdata has the value.  (The queue and the schedule are the model's, log entries 4 and 5, and so is that
the rdata of an ERROR response is compared, log entry 14.) -/
def Obligations.PollReadsUntilTheValue : Prop :=
  ∀ (s : State) (off : Addr) (mask val : Word) (rest : List Input) (ts : List Agent),
    s.inputs = .poll off mask val :: rest →
    (s.dev.busy = false ∧ ts = s.turns ∨ s.dev.busy = true ∧ s.turns = .host :: ts) →
    ∃ (t : State) (r : Resp) (v : Word), hostStep { s with inputs := rest, turns := ts } (rd off) = .next t ∧
      t.lastResp = some ⟨r, v⟩ ∧ (r = .error → v = 0#32) ∧
      step s = .next { t with inputs := if v &&& mask = val then rest else s.inputs }

/-- R101 with R70, R34 and R35: LOAD.  On an idle device, run as one transaction a step, it leaves the slot present and
holding exactly the byte string, the pad bytes of the last word 0x00, and changes nothing else: no other byte, no
other slot, no other field.  (The queue is log entry 4.) -/
def Obligations.LoadFillsTheSlot : Prop :=
  ∀ (s : State) (x : Slot) (bs : Bytes) (rest : List Input), s.cfg.wf → s.dev.mem.wf → s.dev.busy = false →
    bs.length ≤ s.cfg.cap x → s.inputs = progLoad x bs ++ rest →
    ∃ t, Host.Core.run Sys2Proof.core (progLoad x bs).length s = .next t ∧
      t.dev.bytes x = bs ∧ t.dev.present x = true ∧ (∀ y, y ≠ x → t.dev.slot y = s.dev.slot y) ∧
      (∀ j, bs.length ≤ j → j < (bs.length + 3) / 4 * 4 → t.dev.mem.read (winBase x + j) = 0#8) ∧
      (∀ a, a < winBase x ∨ winBase x + (bs.length + 3) / 4 * 4 ≤ a → t.dev.mem.read a = s.dev.mem.read a) ∧
      t = { s with dev := { s.dev with mem := t.dev.mem, lenA := t.dev.lenA, lenB := t.dev.lenB, lenC := t.dev.lenC },
                   inputs := rest, lastResp := some ⟨.okay, 0#32⟩ }

/-- The host's hook (log entry 4): a command word placed by `withFetchWord` is run by the very next step, on the
state it was placed in. -/
def Obligations.PlacedWordRunsNext : Prop :=
  ∀ (s : State) (nbits w : Nat) (i : Instr), decodeTableWord nbits w = some i →
    step (s.withFetchWord nbits w) = exec i s

/-! ## Reset -/

/-- R240: the state after reset. -/
def Obligations.ResetLeavesTheListedValues : Prop :=
  State.reset.dev.busy = false ∧ State.reset.dev.done = false ∧ State.reset.dev.berr = false ∧
  State.reset.dev.err = 0#4 ∧ State.reset.dev.errArg = 0#3 ∧ State.reset.dev.outCount = 0#2 ∧
  State.reset.dev.ie = false ∧ (∀ x, State.reset.dev.len x = 0 ∧ State.reset.dev.present x = false) ∧
  (∀ a, State.reset.dev.mem.read a = 0#8) ∧ State.reset.dev.pend = .none ∧ State.reset.dev.irq = false ∧
  hostStep State.reset (rd 0x0014#16) = .next { State.reset with lastResp := some ⟨.okay, 0#32⟩ } ∧
  hostStep State.reset (rd 0x0000#16) = .next { State.reset with lastResp := some ⟨.okay, 0x484B4446#32⟩ } ∧
  (∀ x, hostStep State.reset (rd (BitVec.ofNat 16 (regOffset (.cap x)))) =
    .next { State.reset with lastResp := some ⟨.okay, BitVec.ofNat 32 (State.reset.cfg.cap x)⟩ })

/-- R240, R241: the reset input, whatever the device is doing, puts every piece of its state to the reset value;
a pending command is abandoned.  (Reset as an input of the queue is the model's: log entries 4 and 12.) -/
def Obligations.ResetAbandonsThePendingCommand : Prop :=
  ∀ (s : State) (rest : List Input), s.inputs = .reset :: rest →
    (s.dev.busy = false → step s = .next { s with dev := State.reset.dev, inputs := rest }) ∧
    (∀ ts, s.dev.busy = true → s.turns = .host :: ts →
      step s = .next { s with dev := State.reset.dev, inputs := rest, turns := ts })

/-- R242.  After reset every slot is absent, and of all a transaction or an engine step can do only an x_LEN write makes
a slot present; so before any LEN write slot A is absent, and in every such state with BUSY = 0, whatever else was done
since reset, DERIVE, DERIVE.DEF and VERIFY are accepted and fail with TYPE and ERR_ARG = 1, under every configuration. -/
def Obligations.CommandsAfterResetFailWithType : Prop :=
  (∀ x, State.reset.dev.present x = false) ∧
  (∀ (s t : State) (tr : Transaction) (x : Slot), hostStep s tr = .next t →
    s.dev.present x = false → t.dev.present x = true → ∃ w, tr = wr (BitVec.ofNat 16 (regOffset (.len x))) w) ∧
  (∀ (s t : State) (x : Slot), engineStep s = .next t → t.dev.present x = s.dev.present x) ∧
  (∀ (s : State) (i : Instr), s.dev.busy = false → s.dev.present .a = false → i ≠ .nop →
    ∃ t u, exec i s = .next t ∧ engineStep t = .next u ∧ u.dev.err = 1#4 ∧ u.dev.errArg = 1#3)

/-! ## The whole machine -/

/-- The invariant of Safety.lean holds at reset (R240). -/
def Obligations.InvariantHoldsAtReset : Prop := State.reset.Inv

/-- R28, R30, R32, R38, R39, R65, R200: every step keeps the invariant of Safety.lean: BUSY is PEND, BUSY and DONE
never hold together, ERR and ERR_ARG are a pair of the table and 0 while busy, OUT is zero past OUT_COUNT chunks,
the memory is canonical and holds mapped bytes only. -/
def Obligations.EveryStepKeepsTheInvariant : Prop :=
  ∀ s t : State, s.Inv → step s = .next t → t.Inv

/-- R121: from a state of the invariant a step always goes on: nothing blocks, faults or refuses. -/
def Obligations.StepNeverStops : Prop :=
  ∀ s : State, s.Inv → ∃ t, step s = .next t

/-- R121: under every schedule of the state, a pending command is completed within as many steps as the schedule has host
turns before the engine's first, plus one, unless a reset is among the inputs.  (The schedule is the model's: log
entry 5.) -/
def Obligations.PendingCommandCompletes : Prop :=
  ∀ s : State, s.Inv → s.dev.busy = true → Input.reset ∉ s.inputs →
    ∃ (k : Nat) (t : State), k ≤ (s.turns.takeWhile (· = Agent.host)).length + 1 ∧
      Host.Core.run Sys2Proof.core k s = .next t ∧ t.dev.busy = false ∧ t.dev.done = true ∧ t.dev.pend = .none

/-- R42: no step changes the configuration, which the model carries in its state (log entry 1). -/
def Obligations.ConfigurationIsFixed : Prop :=
  ∀ s t : State, step s = .next t → t.cfg = s.cfg

/-- R27: BUSY rises only by the issue of DERIVE, DERIVE.DEF or VERIFY, and falls only by the engine step or a reset;
while it is 1, PEND holds the command (in a state of the invariant) and every host write is a bus error; it is 0
at reset.  (The steps are those of the model's queue and schedule: log entries 4 and 5.) -/
def Obligations.BusyRisesByIssueAndFallsByCompletion : Prop :=
  (∀ s t : State, step s = .next t → s.dev.busy = false → t.dev.busy = true →
    ∃ w rest i, s.inputs = .bus (wr 0x0010#16 w) :: rest ∧ decode w = .ok i ∧ i ≠ .nop) ∧
  (∀ s t : State, step s = .next t → s.dev.busy = true → t.dev.busy = false →
    engineStep { s with turns := t.turns } = .next t ∨ ∃ rest, s.inputs = .reset :: rest) ∧
  (∀ s : State, s.Inv → s.dev.busy = true → s.dev.pend ≠ .none) ∧
  (∀ (s : State) (x : Transaction), s.dev.busy = true → x.kind = .write →
    hostStep s x = .next { s with dev := { s.dev with berr := true }, lastResp := some ⟨.error, 0#32⟩ }) ∧
  State.reset.dev.busy = false

/-- R28: DONE rises only by the completion of a command (NOP and ILLEGAL at issue, the others in the engine step), and
falls only by a STATUS write with bit 1 set, the issue of DERIVE or VERIFY, or a reset; each of these does it.  BUSY = 1
and DONE = 1 never hold together (in a state of the invariant).  (The steps are those of the model's queue and
schedule: log entries 4 and 5.) -/
def Obligations.DoneRisesByCompletionOnly : Prop :=
  (∀ s t : State, step s = .next t → s.dev.done = false → t.dev.done = true →
    engineStep { s with turns := t.turns } = .next t ∨
    ∃ w rest, s.inputs = .bus (wr 0x0010#16 w) :: rest ∧ (decode w = .ok .nop ∨ ∃ why, decode w = .error why)) ∧
  (∀ s t : State, step s = .next t → s.dev.done = true → t.dev.done = false →
    (∃ rest, s.inputs = .reset :: rest) ∨
    (∃ w rest, s.inputs = .bus (wr 0x0014#16 w) :: rest ∧ w.getLsbD 1 = true) ∨
    ∃ w rest i, s.inputs = .bus (wr 0x0010#16 w) :: rest ∧ decode w = .ok i ∧ i ≠ .nop) ∧
  (∀ s t : State, engineStep s = .next t → t.dev.done = true) ∧
  (∀ (s : State) (w : Word), s.dev.busy = false → ∃ t, hostStep s (wr 0x0010#16 w) = .next t ∧
    (t.dev.done = true ↔ ∀ i, decode w = .ok i → i = .nop)) ∧
  (∀ (s : State) (w : Word), s.dev.busy = false → w.getLsbD 1 = true →
    ∃ t, hostStep s (wr 0x0014#16 w) = .next t ∧ t.dev.done = false) ∧
  (∀ s : State, s.Inv → ¬ (s.dev.busy = true ∧ s.dev.done = true)) ∧
  State.reset.dev.done = false

/-- R29: every ERROR response comes with BERR set; BERR rises with an ERROR response only, and falls only by a STATUS
write with bit 2 set while BUSY = 0, or a reset; it is 0 at reset.  (The steps are those of the model's queue and
schedule: log entries 4 and 5.) -/
def Obligations.BusErrorFlagIsSticky : Prop :=
  (∀ (s t : State) (x : Transaction) (v : Word), hostStep s x = .next t → t.lastResp = some ⟨.error, v⟩ →
    t.dev.berr = true) ∧
  (∀ s t : State, step s = .next t → s.dev.berr = false → t.dev.berr = true → t.lastResp = some ⟨.error, 0#32⟩) ∧
  (∀ s t : State, step s = .next t → s.dev.berr = true → t.dev.berr = false →
    (∃ rest, s.inputs = .reset :: rest) ∨
    ∃ w rest, s.inputs = .bus (wr 0x0014#16 w) :: rest ∧ w.getLsbD 2 = true ∧ s.dev.busy = false) ∧
  (∀ (s : State) (w : Word), s.dev.busy = false → w.getLsbD 2 = true →
    ∃ t, hostStep s (wr 0x0014#16 w) = .next t ∧ t.dev.berr = false) ∧
  State.reset.dev.berr = false

/-- R205, R30, R31: ERR and ERR_ARG keep their values until the next accepted command overwrites them (its CMD write, or
its engine step) or a reset.  (The steps are those of the model's queue and schedule: log entries 4 and 5.) -/
def Obligations.ErrorIsHeldUntilTheNextCommand : Prop :=
  ∀ s t : State, step s = .next t → (t.dev.err ≠ s.dev.err ∨ t.dev.errArg ≠ s.dev.errArg) →
    (∃ rest, s.inputs = .reset :: rest) ∨
    (∃ w rest, s.inputs = .bus (wr 0x0010#16 w) :: rest ∧ s.dev.busy = false) ∨
    engineStep { s with turns := t.turns } = .next t

/-- R38, R32: OUT and OUT_COUNT change only by the issue of DERIVE or DERIVE.DEF, by the engine step of a DERIVE, or by
a reset.  (The steps are those of the model's queue and schedule: log entries 4 and 5.) -/
def Obligations.OnlyDeriveWritesOut : Prop :=
  ∀ s t : State, step s = .next t →
    ((∃ a, inOut a ∧ t.dev.mem.read a ≠ s.dev.mem.read a) ∨ t.dev.outCount ≠ s.dev.outCount) →
    (∃ rest, s.inputs = .reset :: rest) ∨
    (∃ w rest, s.inputs = .bus (wr 0x0010#16 w) :: rest ∧
      (decode w = .ok .deriveDef ∨ ∃ n, decode w = .ok (.derive n))) ∨
    (∃ n, s.dev.pend = .derive n) ∧ engineStep { s with turns := t.turns } = .next t

/-- R79, R244: from the issue of DERIVE or VERIFY until BUSY falls, no step changes the device but for BERR: the command
sees its operands as they stood when it was issued. -/
def Obligations.OperandsHoldUntilCompletion : Prop :=
  ∀ s t : State, step s = .next t → s.dev.busy = true → t.dev.busy = true →
    t.dev = s.dev ∨ t.dev = { s.dev with berr := true }

/-- R245: in a state of the invariant with BUSY = 1, STATUS reads ERR = 0, ERR_ARG = 0 and DONE = 0; and while a DERIVE is
pending, OUT_COUNT reads 0 and OUT reads all zero. -/
def Obligations.NoResultIsReadTooEarly : Prop :=
  ∀ s : State, s.Inv → s.dev.busy = true →
    ∃ v : Word, hostStep s (rd 0x0014#16) = .next { s with lastResp := some ⟨.okay, v⟩ } ∧
      v.extractLsb' 8 4 = 0#4 ∧ v.extractLsb' 12 3 = 0#3 ∧ v.getLsbD 1 = false ∧
      ((∃ n, s.dev.pend = .derive n) →
        v.extractLsb' 16 2 = 0#2 ∧
        ∀ o, o % 4 = 0 → o < 96 →
          hostStep s (rd (BitVec.ofNat 16 (0x0100 + o))) = .next { s with lastResp := some ⟨.okay, 0#32⟩ })

/-- R210: `irq` is DONE ∧ IE in every state.  It is IE after every completion, successful or not; it is 0 after a
STATUS write with bit 1 set and after the issue of DERIVE or VERIFY; an IRQ_EN write makes it DONE ∧ wdata[0]; and a
bus error does not touch it. -/
def Obligations.InterruptFollowsDoneAndEnable : Prop :=
  (∀ s : State, s.dev.irq = true ↔ s.dev.done = true ∧ s.dev.ie = true) ∧
  (∀ s t : State, engineStep s = .next t → t.dev.irq = s.dev.ie) ∧
  (∀ (s : State) (w : Word), s.dev.busy = false → ∃ t, hostStep s (wr 0x0010#16 w) = .next t ∧
    ((decode w = .ok .nop ∨ ∃ why, decode w = .error why) → t.dev.irq = s.dev.ie) ∧
    (∀ i, decode w = .ok i → i ≠ .nop → t.dev.irq = false)) ∧
  (∀ (s : State) (w : Word), s.dev.busy = false → w.getLsbD 1 = true →
    ∃ t, hostStep s (wr 0x0014#16 w) = .next t ∧ t.dev.irq = false) ∧
  (∀ (s : State) (w : Word), s.dev.busy = false →
    ∃ t, hostStep s (wr 0x0018#16 w) = .next t ∧ t.dev.irq = (s.dev.done && w.getLsbD 0)) ∧
  (∀ (s t : State) (x : Transaction), busErrorCause s x → hostStep s x = .next t → t.dev.irq = s.dev.irq)
end

