-- ==== Sys2Proof/Laws/State.lean ====
section
/-! SUPPORT. One lemma per field per update of the device and of the state, all true by computation, so that
no proof unfolds a record update. -/

namespace Sys2Proof.Machine

/-! ### `Hkx.finishAtIssue` -/

@[simp] theorem Hkx.finishAtIssue_busy (d : Hkx) (code : BitVec 4) : (d.finishAtIssue code).busy = d.busy := rfl
@[simp] theorem Hkx.finishAtIssue_done (d : Hkx) (code : BitVec 4) : (d.finishAtIssue code).done = true := rfl
@[simp] theorem Hkx.finishAtIssue_berr (d : Hkx) (code : BitVec 4) : (d.finishAtIssue code).berr = d.berr := rfl
@[simp] theorem Hkx.finishAtIssue_err (d : Hkx) (code : BitVec 4) : (d.finishAtIssue code).err = code := rfl
@[simp] theorem Hkx.finishAtIssue_errArg (d : Hkx) (code : BitVec 4) : (d.finishAtIssue code).errArg = argNone := rfl
@[simp] theorem Hkx.finishAtIssue_outCount (d : Hkx) (code : BitVec 4) : (d.finishAtIssue code).outCount = d.outCount := rfl
@[simp] theorem Hkx.finishAtIssue_ie (d : Hkx) (code : BitVec 4) : (d.finishAtIssue code).ie = d.ie := rfl
@[simp] theorem Hkx.finishAtIssue_lenA (d : Hkx) (code : BitVec 4) : (d.finishAtIssue code).lenA = d.lenA := rfl
@[simp] theorem Hkx.finishAtIssue_lenB (d : Hkx) (code : BitVec 4) : (d.finishAtIssue code).lenB = d.lenB := rfl
@[simp] theorem Hkx.finishAtIssue_lenC (d : Hkx) (code : BitVec 4) : (d.finishAtIssue code).lenC = d.lenC := rfl
@[simp] theorem Hkx.finishAtIssue_mem (d : Hkx) (code : BitVec 4) : (d.finishAtIssue code).mem = d.mem := rfl
@[simp] theorem Hkx.finishAtIssue_pend (d : Hkx) (code : BitVec 4) : (d.finishAtIssue code).pend = d.pend := rfl
@[simp] theorem Hkx.finishAtIssue_slot (d : Hkx) (code : BitVec 4) : (d.finishAtIssue code).slot = d.slot := by funext x; cases x <;> rfl
@[simp] theorem Hkx.finishAtIssue_present (d : Hkx) (code : BitVec 4) : (d.finishAtIssue code).present = d.present := by funext x; simp [Hkx.present]
@[simp] theorem Hkx.finishAtIssue_len (d : Hkx) (code : BitVec 4) : (d.finishAtIssue code).len = d.len := by funext x; simp [Hkx.len]
@[simp] theorem Hkx.finishAtIssue_guard (d : Hkx) (code : BitVec 4) : (d.finishAtIssue code).guard = d.guard := by
  funext cfg; simp [Hkx.guard, Hkx.guard1]

/-! ### `Hkx.startDerive` -/

@[simp] theorem Hkx.startDerive_busy (d : Hkx) (n : Byte) : (d.startDerive n).busy = true := rfl
@[simp] theorem Hkx.startDerive_done (d : Hkx) (n : Byte) : (d.startDerive n).done = false := rfl
@[simp] theorem Hkx.startDerive_berr (d : Hkx) (n : Byte) : (d.startDerive n).berr = d.berr := rfl
@[simp] theorem Hkx.startDerive_err (d : Hkx) (n : Byte) : (d.startDerive n).err = errNone := rfl
@[simp] theorem Hkx.startDerive_errArg (d : Hkx) (n : Byte) : (d.startDerive n).errArg = argNone := rfl
@[simp] theorem Hkx.startDerive_outCount (d : Hkx) (n : Byte) : (d.startDerive n).outCount = 0#2 := rfl
@[simp] theorem Hkx.startDerive_ie (d : Hkx) (n : Byte) : (d.startDerive n).ie = d.ie := rfl
@[simp] theorem Hkx.startDerive_lenA (d : Hkx) (n : Byte) : (d.startDerive n).lenA = d.lenA := rfl
@[simp] theorem Hkx.startDerive_lenB (d : Hkx) (n : Byte) : (d.startDerive n).lenB = d.lenB := rfl
@[simp] theorem Hkx.startDerive_lenC (d : Hkx) (n : Byte) : (d.startDerive n).lenC = d.lenC := rfl
@[simp] theorem Hkx.startDerive_mem (d : Hkx) (n : Byte) : (d.startDerive n).mem = d.mem.clearOut := by simp only [Hkx.startDerive]
@[simp] theorem Hkx.startDerive_pend (d : Hkx) (n : Byte) : (d.startDerive n).pend = .derive n := rfl
@[simp] theorem Hkx.startDerive_slot (d : Hkx) (n : Byte) : (d.startDerive n).slot = d.slot := by funext x; cases x <;> rfl
@[simp] theorem Hkx.startDerive_present (d : Hkx) (n : Byte) : (d.startDerive n).present = d.present := by funext x; simp [Hkx.present]
@[simp] theorem Hkx.startDerive_len (d : Hkx) (n : Byte) : (d.startDerive n).len = d.len := by funext x; simp [Hkx.len]
@[simp] theorem Hkx.startDerive_guard (d : Hkx) (n : Byte) : (d.startDerive n).guard = d.guard := by
  funext cfg; simp [Hkx.guard, Hkx.guard1]

/-! ### `Hkx.startVerify` -/

@[simp] theorem Hkx.startVerify_busy (d : Hkx) (n : Byte) : (d.startVerify n).busy = true := rfl
@[simp] theorem Hkx.startVerify_done (d : Hkx) (n : Byte) : (d.startVerify n).done = false := rfl
@[simp] theorem Hkx.startVerify_berr (d : Hkx) (n : Byte) : (d.startVerify n).berr = d.berr := rfl
@[simp] theorem Hkx.startVerify_err (d : Hkx) (n : Byte) : (d.startVerify n).err = errNone := rfl
@[simp] theorem Hkx.startVerify_errArg (d : Hkx) (n : Byte) : (d.startVerify n).errArg = argNone := rfl
@[simp] theorem Hkx.startVerify_outCount (d : Hkx) (n : Byte) : (d.startVerify n).outCount = d.outCount := rfl
@[simp] theorem Hkx.startVerify_ie (d : Hkx) (n : Byte) : (d.startVerify n).ie = d.ie := rfl
@[simp] theorem Hkx.startVerify_lenA (d : Hkx) (n : Byte) : (d.startVerify n).lenA = d.lenA := rfl
@[simp] theorem Hkx.startVerify_lenB (d : Hkx) (n : Byte) : (d.startVerify n).lenB = d.lenB := rfl
@[simp] theorem Hkx.startVerify_lenC (d : Hkx) (n : Byte) : (d.startVerify n).lenC = d.lenC := rfl
@[simp] theorem Hkx.startVerify_mem (d : Hkx) (n : Byte) : (d.startVerify n).mem = d.mem := rfl
@[simp] theorem Hkx.startVerify_pend (d : Hkx) (n : Byte) : (d.startVerify n).pend = .verify n := rfl
@[simp] theorem Hkx.startVerify_slot (d : Hkx) (n : Byte) : (d.startVerify n).slot = d.slot := by funext x; cases x <;> rfl
@[simp] theorem Hkx.startVerify_present (d : Hkx) (n : Byte) : (d.startVerify n).present = d.present := by funext x; simp [Hkx.present]
@[simp] theorem Hkx.startVerify_len (d : Hkx) (n : Byte) : (d.startVerify n).len = d.len := by funext x; simp [Hkx.len]
@[simp] theorem Hkx.startVerify_guard (d : Hkx) (n : Byte) : (d.startVerify n).guard = d.guard := by
  funext cfg; simp [Hkx.guard, Hkx.guard1]

/-! ### `Hkx.complete` -/

@[simp] theorem Hkx.complete_busy (d : Hkx) (code : BitVec 4) (arg : BitVec 3) : (d.complete code arg).busy = false := rfl
@[simp] theorem Hkx.complete_done (d : Hkx) (code : BitVec 4) (arg : BitVec 3) : (d.complete code arg).done = true := rfl
@[simp] theorem Hkx.complete_berr (d : Hkx) (code : BitVec 4) (arg : BitVec 3) : (d.complete code arg).berr = d.berr := rfl
@[simp] theorem Hkx.complete_err (d : Hkx) (code : BitVec 4) (arg : BitVec 3) : (d.complete code arg).err = code := rfl
@[simp] theorem Hkx.complete_errArg (d : Hkx) (code : BitVec 4) (arg : BitVec 3) : (d.complete code arg).errArg = arg := rfl
@[simp] theorem Hkx.complete_outCount (d : Hkx) (code : BitVec 4) (arg : BitVec 3) : (d.complete code arg).outCount = d.outCount := rfl
@[simp] theorem Hkx.complete_ie (d : Hkx) (code : BitVec 4) (arg : BitVec 3) : (d.complete code arg).ie = d.ie := rfl
@[simp] theorem Hkx.complete_lenA (d : Hkx) (code : BitVec 4) (arg : BitVec 3) : (d.complete code arg).lenA = d.lenA := rfl
@[simp] theorem Hkx.complete_lenB (d : Hkx) (code : BitVec 4) (arg : BitVec 3) : (d.complete code arg).lenB = d.lenB := rfl
@[simp] theorem Hkx.complete_lenC (d : Hkx) (code : BitVec 4) (arg : BitVec 3) : (d.complete code arg).lenC = d.lenC := rfl
@[simp] theorem Hkx.complete_mem (d : Hkx) (code : BitVec 4) (arg : BitVec 3) : (d.complete code arg).mem = d.mem := rfl
@[simp] theorem Hkx.complete_pend (d : Hkx) (code : BitVec 4) (arg : BitVec 3) : (d.complete code arg).pend = .none := rfl
@[simp] theorem Hkx.complete_slot (d : Hkx) (code : BitVec 4) (arg : BitVec 3) : (d.complete code arg).slot = d.slot := by funext x; cases x <;> rfl
@[simp] theorem Hkx.complete_present (d : Hkx) (code : BitVec 4) (arg : BitVec 3) : (d.complete code arg).present = d.present := by funext x; simp [Hkx.present]
@[simp] theorem Hkx.complete_len (d : Hkx) (code : BitVec 4) (arg : BitVec 3) : (d.complete code arg).len = d.len := by funext x; simp [Hkx.len]
@[simp] theorem Hkx.complete_guard (d : Hkx) (code : BitVec 4) (arg : BitVec 3) : (d.complete code arg).guard = d.guard := by
  funext cfg; simp [Hkx.guard, Hkx.guard1]

/-! ### `Hkx.storeChunks` -/

@[simp] theorem Hkx.storeChunks_busy (d : Hkx) (cs : List Bytes32) (n : Byte) : (d.storeChunks cs n).busy = d.busy := rfl
@[simp] theorem Hkx.storeChunks_done (d : Hkx) (cs : List Bytes32) (n : Byte) : (d.storeChunks cs n).done = d.done := rfl
@[simp] theorem Hkx.storeChunks_berr (d : Hkx) (cs : List Bytes32) (n : Byte) : (d.storeChunks cs n).berr = d.berr := rfl
@[simp] theorem Hkx.storeChunks_err (d : Hkx) (cs : List Bytes32) (n : Byte) : (d.storeChunks cs n).err = d.err := rfl
@[simp] theorem Hkx.storeChunks_errArg (d : Hkx) (cs : List Bytes32) (n : Byte) : (d.storeChunks cs n).errArg = d.errArg := rfl
@[simp] theorem Hkx.storeChunks_outCount (d : Hkx) (cs : List Bytes32) (n : Byte) : (d.storeChunks cs n).outCount = n.setWidth 2 := rfl
@[simp] theorem Hkx.storeChunks_ie (d : Hkx) (cs : List Bytes32) (n : Byte) : (d.storeChunks cs n).ie = d.ie := rfl
@[simp] theorem Hkx.storeChunks_lenA (d : Hkx) (cs : List Bytes32) (n : Byte) : (d.storeChunks cs n).lenA = d.lenA := rfl
@[simp] theorem Hkx.storeChunks_lenB (d : Hkx) (cs : List Bytes32) (n : Byte) : (d.storeChunks cs n).lenB = d.lenB := rfl
@[simp] theorem Hkx.storeChunks_lenC (d : Hkx) (cs : List Bytes32) (n : Byte) : (d.storeChunks cs n).lenC = d.lenC := rfl
@[simp] theorem Hkx.storeChunks_mem (d : Hkx) (cs : List Bytes32) (n : Byte) : (d.storeChunks cs n).mem = d.mem.writeBytes outBase (cs.flatMap Vector.toList) := rfl
@[simp] theorem Hkx.storeChunks_pend (d : Hkx) (cs : List Bytes32) (n : Byte) : (d.storeChunks cs n).pend = d.pend := rfl
@[simp] theorem Hkx.storeChunks_slot (d : Hkx) (cs : List Bytes32) (n : Byte) : (d.storeChunks cs n).slot = d.slot := by funext x; cases x <;> rfl
@[simp] theorem Hkx.storeChunks_present (d : Hkx) (cs : List Bytes32) (n : Byte) : (d.storeChunks cs n).present = d.present := by funext x; simp [Hkx.present]
@[simp] theorem Hkx.storeChunks_len (d : Hkx) (cs : List Bytes32) (n : Byte) : (d.storeChunks cs n).len = d.len := by funext x; simp [Hkx.len]
@[simp] theorem Hkx.storeChunks_guard (d : Hkx) (cs : List Bytes32) (n : Byte) : (d.storeChunks cs n).guard = d.guard := by
  funext cfg; simp [Hkx.guard, Hkx.guard1]

/-! ### `Hkx.writeStatus` -/

@[simp] theorem Hkx.writeStatus_busy (d : Hkx) (w : Word) : (d.writeStatus w).busy = d.busy := rfl
@[simp] theorem Hkx.writeStatus_done (d : Hkx) (w : Word) : (d.writeStatus w).done = (d.done && !w.getLsbD 1) := rfl
@[simp] theorem Hkx.writeStatus_berr (d : Hkx) (w : Word) : (d.writeStatus w).berr = (d.berr && !w.getLsbD 2) := rfl
@[simp] theorem Hkx.writeStatus_err (d : Hkx) (w : Word) : (d.writeStatus w).err = d.err := rfl
@[simp] theorem Hkx.writeStatus_errArg (d : Hkx) (w : Word) : (d.writeStatus w).errArg = d.errArg := rfl
@[simp] theorem Hkx.writeStatus_outCount (d : Hkx) (w : Word) : (d.writeStatus w).outCount = d.outCount := rfl
@[simp] theorem Hkx.writeStatus_ie (d : Hkx) (w : Word) : (d.writeStatus w).ie = d.ie := rfl
@[simp] theorem Hkx.writeStatus_lenA (d : Hkx) (w : Word) : (d.writeStatus w).lenA = d.lenA := rfl
@[simp] theorem Hkx.writeStatus_lenB (d : Hkx) (w : Word) : (d.writeStatus w).lenB = d.lenB := rfl
@[simp] theorem Hkx.writeStatus_lenC (d : Hkx) (w : Word) : (d.writeStatus w).lenC = d.lenC := rfl
@[simp] theorem Hkx.writeStatus_mem (d : Hkx) (w : Word) : (d.writeStatus w).mem = d.mem := rfl
@[simp] theorem Hkx.writeStatus_pend (d : Hkx) (w : Word) : (d.writeStatus w).pend = d.pend := rfl
@[simp] theorem Hkx.writeStatus_slot (d : Hkx) (w : Word) : (d.writeStatus w).slot = d.slot := by funext x; cases x <;> rfl
@[simp] theorem Hkx.writeStatus_present (d : Hkx) (w : Word) : (d.writeStatus w).present = d.present := by funext x; simp [Hkx.present]
@[simp] theorem Hkx.writeStatus_len (d : Hkx) (w : Word) : (d.writeStatus w).len = d.len := by funext x; simp [Hkx.len]
@[simp] theorem Hkx.writeStatus_guard (d : Hkx) (w : Word) : (d.writeStatus w).guard = d.guard := by
  funext cfg; simp [Hkx.guard, Hkx.guard1]

/-! ### `Hkx.writeIrqEn` -/

@[simp] theorem Hkx.writeIrqEn_busy (d : Hkx) (w : Word) : (d.writeIrqEn w).busy = d.busy := rfl
@[simp] theorem Hkx.writeIrqEn_done (d : Hkx) (w : Word) : (d.writeIrqEn w).done = d.done := rfl
@[simp] theorem Hkx.writeIrqEn_berr (d : Hkx) (w : Word) : (d.writeIrqEn w).berr = d.berr := rfl
@[simp] theorem Hkx.writeIrqEn_err (d : Hkx) (w : Word) : (d.writeIrqEn w).err = d.err := rfl
@[simp] theorem Hkx.writeIrqEn_errArg (d : Hkx) (w : Word) : (d.writeIrqEn w).errArg = d.errArg := rfl
@[simp] theorem Hkx.writeIrqEn_outCount (d : Hkx) (w : Word) : (d.writeIrqEn w).outCount = d.outCount := rfl
@[simp] theorem Hkx.writeIrqEn_ie (d : Hkx) (w : Word) : (d.writeIrqEn w).ie = w.getLsbD 0 := rfl
@[simp] theorem Hkx.writeIrqEn_lenA (d : Hkx) (w : Word) : (d.writeIrqEn w).lenA = d.lenA := rfl
@[simp] theorem Hkx.writeIrqEn_lenB (d : Hkx) (w : Word) : (d.writeIrqEn w).lenB = d.lenB := rfl
@[simp] theorem Hkx.writeIrqEn_lenC (d : Hkx) (w : Word) : (d.writeIrqEn w).lenC = d.lenC := rfl
@[simp] theorem Hkx.writeIrqEn_mem (d : Hkx) (w : Word) : (d.writeIrqEn w).mem = d.mem := rfl
@[simp] theorem Hkx.writeIrqEn_pend (d : Hkx) (w : Word) : (d.writeIrqEn w).pend = d.pend := rfl
@[simp] theorem Hkx.writeIrqEn_slot (d : Hkx) (w : Word) : (d.writeIrqEn w).slot = d.slot := by funext x; cases x <;> rfl
@[simp] theorem Hkx.writeIrqEn_present (d : Hkx) (w : Word) : (d.writeIrqEn w).present = d.present := by funext x; simp [Hkx.present]
@[simp] theorem Hkx.writeIrqEn_len (d : Hkx) (w : Word) : (d.writeIrqEn w).len = d.len := by funext x; simp [Hkx.len]
@[simp] theorem Hkx.writeIrqEn_guard (d : Hkx) (w : Word) : (d.writeIrqEn w).guard = d.guard := by
  funext cfg; simp [Hkx.guard, Hkx.guard1]

/-! ### `Hkx.writeWin` -/

@[simp] theorem Hkx.writeWin_busy (d : Hkx) (s : Slot) (o : Nat) (w : Word) : (d.writeWin s o w).busy = d.busy := rfl
@[simp] theorem Hkx.writeWin_done (d : Hkx) (s : Slot) (o : Nat) (w : Word) : (d.writeWin s o w).done = d.done := rfl
@[simp] theorem Hkx.writeWin_berr (d : Hkx) (s : Slot) (o : Nat) (w : Word) : (d.writeWin s o w).berr = d.berr := rfl
@[simp] theorem Hkx.writeWin_err (d : Hkx) (s : Slot) (o : Nat) (w : Word) : (d.writeWin s o w).err = d.err := rfl
@[simp] theorem Hkx.writeWin_errArg (d : Hkx) (s : Slot) (o : Nat) (w : Word) : (d.writeWin s o w).errArg = d.errArg := rfl
@[simp] theorem Hkx.writeWin_outCount (d : Hkx) (s : Slot) (o : Nat) (w : Word) : (d.writeWin s o w).outCount = d.outCount := rfl
@[simp] theorem Hkx.writeWin_ie (d : Hkx) (s : Slot) (o : Nat) (w : Word) : (d.writeWin s o w).ie = d.ie := rfl
@[simp] theorem Hkx.writeWin_lenA (d : Hkx) (s : Slot) (o : Nat) (w : Word) : (d.writeWin s o w).lenA = d.lenA := rfl
@[simp] theorem Hkx.writeWin_lenB (d : Hkx) (s : Slot) (o : Nat) (w : Word) : (d.writeWin s o w).lenB = d.lenB := rfl
@[simp] theorem Hkx.writeWin_lenC (d : Hkx) (s : Slot) (o : Nat) (w : Word) : (d.writeWin s o w).lenC = d.lenC := rfl
@[simp] theorem Hkx.writeWin_mem (d : Hkx) (s : Slot) (o : Nat) (w : Word) : (d.writeWin s o w).mem = d.mem.writeWord (winBase s + o) w := rfl
@[simp] theorem Hkx.writeWin_pend (d : Hkx) (s : Slot) (o : Nat) (w : Word) : (d.writeWin s o w).pend = d.pend := rfl
@[simp] theorem Hkx.writeWin_slot (d : Hkx) (s : Slot) (o : Nat) (w : Word) : (d.writeWin s o w).slot = d.slot := by funext x; cases x <;> rfl
@[simp] theorem Hkx.writeWin_present (d : Hkx) (s : Slot) (o : Nat) (w : Word) : (d.writeWin s o w).present = d.present := by funext x; simp [Hkx.present]
@[simp] theorem Hkx.writeWin_len (d : Hkx) (s : Slot) (o : Nat) (w : Word) : (d.writeWin s o w).len = d.len := by funext x; simp [Hkx.len]
@[simp] theorem Hkx.writeWin_guard (d : Hkx) (s : Slot) (o : Nat) (w : Word) : (d.writeWin s o w).guard = d.guard := by
  funext cfg; simp [Hkx.guard, Hkx.guard1]

/-! ### `Hkx.setSlot` and `Hkx.writeLen` -/

@[simp] theorem Hkx.setSlot_busy (d : Hkx) (s : Slot) (r : SlotReg) : (d.setSlot s r).busy = d.busy := by cases s <;> rfl
@[simp] theorem Hkx.writeLen_busy (d : Hkx) (s : Slot) (w : Word) : (d.writeLen s w).busy = d.busy := by cases s <;> rfl
@[simp] theorem Hkx.setSlot_done (d : Hkx) (s : Slot) (r : SlotReg) : (d.setSlot s r).done = d.done := by cases s <;> rfl
@[simp] theorem Hkx.writeLen_done (d : Hkx) (s : Slot) (w : Word) : (d.writeLen s w).done = d.done := by cases s <;> rfl
@[simp] theorem Hkx.setSlot_berr (d : Hkx) (s : Slot) (r : SlotReg) : (d.setSlot s r).berr = d.berr := by cases s <;> rfl
@[simp] theorem Hkx.writeLen_berr (d : Hkx) (s : Slot) (w : Word) : (d.writeLen s w).berr = d.berr := by cases s <;> rfl
@[simp] theorem Hkx.setSlot_err (d : Hkx) (s : Slot) (r : SlotReg) : (d.setSlot s r).err = d.err := by cases s <;> rfl
@[simp] theorem Hkx.writeLen_err (d : Hkx) (s : Slot) (w : Word) : (d.writeLen s w).err = d.err := by cases s <;> rfl
@[simp] theorem Hkx.setSlot_errArg (d : Hkx) (s : Slot) (r : SlotReg) : (d.setSlot s r).errArg = d.errArg := by cases s <;> rfl
@[simp] theorem Hkx.writeLen_errArg (d : Hkx) (s : Slot) (w : Word) : (d.writeLen s w).errArg = d.errArg := by cases s <;> rfl
@[simp] theorem Hkx.setSlot_outCount (d : Hkx) (s : Slot) (r : SlotReg) : (d.setSlot s r).outCount = d.outCount := by cases s <;> rfl
@[simp] theorem Hkx.writeLen_outCount (d : Hkx) (s : Slot) (w : Word) : (d.writeLen s w).outCount = d.outCount := by cases s <;> rfl
@[simp] theorem Hkx.setSlot_ie (d : Hkx) (s : Slot) (r : SlotReg) : (d.setSlot s r).ie = d.ie := by cases s <;> rfl
@[simp] theorem Hkx.writeLen_ie (d : Hkx) (s : Slot) (w : Word) : (d.writeLen s w).ie = d.ie := by cases s <;> rfl
@[simp] theorem Hkx.setSlot_mem (d : Hkx) (s : Slot) (r : SlotReg) : (d.setSlot s r).mem = d.mem := by cases s <;> rfl
@[simp] theorem Hkx.writeLen_mem (d : Hkx) (s : Slot) (w : Word) : (d.writeLen s w).mem = d.mem := by cases s <;> rfl
@[simp] theorem Hkx.setSlot_pend (d : Hkx) (s : Slot) (r : SlotReg) : (d.setSlot s r).pend = d.pend := by cases s <;> rfl
@[simp] theorem Hkx.writeLen_pend (d : Hkx) (s : Slot) (w : Word) : (d.writeLen s w).pend = d.pend := by cases s <;> rfl
@[simp] theorem Hkx.setSlot_slot_self (d : Hkx) (s : Slot) (r : SlotReg) : (d.setSlot s r).slot s = r := by
  cases s <;> rfl
theorem Hkx.setSlot_slot_ne (d : Hkx) {s x : Slot} (r : SlotReg) (h : x ≠ s) : (d.setSlot s r).slot x = d.slot x := by
  cases s <;> cases x <;> first | rfl | exact absurd rfl h
@[simp] theorem Hkx.writeLen_slot_self (d : Hkx) (s : Slot) (w : Word) :
    (d.writeLen s w).slot s = ⟨w.extractLsb' 0 16, w.getLsbD 31⟩ := by simp [Hkx.writeLen]
theorem Hkx.writeLen_slot_ne (d : Hkx) {s x : Slot} (w : Word) (h : x ≠ s) : (d.writeLen s w).slot x = d.slot x :=
  Hkx.setSlot_slot_ne d _ h

/-! ### The state -/

@[simp] theorem State.okay_cfg (s : State) (d : Hkx) (v : Word) : (s.okay d v).cfg = s.cfg := rfl
@[simp] theorem State.okay_dev (s : State) (d : Hkx) (v : Word) : (s.okay d v).dev = d := rfl
@[simp] theorem State.okay_inputs (s : State) (d : Hkx) (v : Word) : (s.okay d v).inputs = s.inputs := rfl
@[simp] theorem State.okay_turns (s : State) (d : Hkx) (v : Word) : (s.okay d v).turns = s.turns := rfl
@[simp] theorem State.okay_lastResp (s : State) (d : Hkx) (v : Word) : (s.okay d v).lastResp = some ⟨.okay, v⟩ := rfl

@[simp] theorem State.busError_cfg (s : State) : s.busError.cfg = s.cfg := rfl
@[simp] theorem State.busError_dev (s : State) : s.busError.dev = { s.dev with berr := true } := rfl
@[simp] theorem State.busError_inputs (s : State) : s.busError.inputs = s.inputs := rfl
@[simp] theorem State.busError_turns (s : State) : s.busError.turns = s.turns := rfl
@[simp] theorem State.busError_lastResp (s : State) : s.busError.lastResp = some ⟨.error, 0#32⟩ := rfl

@[simp] theorem State.resetDevice_cfg (s : State) : s.resetDevice.cfg = s.cfg := rfl
@[simp] theorem State.resetDevice_dev (s : State) : s.resetDevice.dev = Hkx.reset := rfl
@[simp] theorem State.resetDevice_inputs (s : State) : s.resetDevice.inputs = s.inputs := rfl
@[simp] theorem State.resetDevice_turns (s : State) : s.resetDevice.turns = s.turns := rfl
@[simp] theorem State.resetDevice_lastResp (s : State) : s.resetDevice.lastResp = s.lastResp := rfl

@[simp] theorem State.okay_lastRdata (s : State) (d : Hkx) (v : Word) : (s.okay d v).lastRdata = v := rfl
@[simp] theorem State.busError_lastRdata (s : State) : s.busError.lastRdata = 0#32 := rfl

/-- `issueCmd` while idle. -/
theorem State.issueCmd_idle {s : State} (h : s.dev.busy = false) (f : Hkx → Hkx) :
    s.issueCmd f = s.okay (f s.dev) 0#32 := by simp [State.issueCmd, h]

/-- `issueCmd` while busy: a bus error, whatever the command. -/
theorem State.issueCmd_busy {s : State} (h : s.dev.busy = true) (f : Hkx → Hkx) :
    s.issueCmd f = s.busError := by simp [State.issueCmd, h]

end Sys2Proof.Machine
end

