-- ==== Sys2Proof/Laws/Memory.lean ====
section
/-! SUPPORT. The memory: a read after a write, what a write leaves alone, and the canonical form. -/

namespace Sys2Proof.Machine

/-! ## One byte -/

@[simp] theorem Memory.read_nil (a : Nat) : Memory.read [] a = 0#8 := rfl

/-- An offset below every listed one reads as 0x00. -/
theorem Memory.read_eq_zero_of_lt {m : Memory} {a : Nat} (h : ∀ x ∈ m, a < x.1) : m.read a = 0#8 := by
  induction m with
  | nil => rfl
  | cons x m ih =>
    have hx := h x (by simp)
    simp only [Memory.read]
    rw [if_neg (by omega)]
    exact ih fun y hy => h y (by simp [hy])

/-- What a write leaves alone, whatever the form of the memory. -/
theorem Memory.read_write_ne (m : Memory) {a b : Nat} (v : Byte) (h : b ≠ a) :
    (m.write a v).read b = m.read b := by
  induction m with
  | nil => simp only [Memory.write]; split <;> simp [Memory.read, Ne.symm h]
  | cons x m ih =>
    obtain ⟨k, w⟩ := x
    simp only [Memory.write]
    split
    · split <;> simp [Memory.read, Ne.symm h]
    · split
      · next hk => subst hk; split <;> simp [Memory.read, Ne.symm h]
      · simp [Memory.read, ih]

/-- The head of a canonical memory lies below its tail, which is canonical. -/
theorem Memory.wf_cons {k : Nat} {w : Byte} {m : Memory} (h : Memory.wf ((k, w) :: m)) :
    (∀ x ∈ m, k < x.1) ∧ w ≠ 0#8 ∧ m.wf := by
  obtain ⟨hp, hz⟩ := h
  rw [List.pairwise_cons] at hp
  exact ⟨hp.1, hz (k, w) (by simp), hp.2, fun x hx => hz x (by simp [hx])⟩

/-- A read after a write of the same byte. -/
theorem Memory.read_write_self {m : Memory} (hm : m.wf) (a : Nat) (v : Byte) :
    (m.write a v).read a = v := by
  induction m with
  | nil => simp only [Memory.write]; split <;> simp_all [Memory.read]
  | cons x m ih =>
    obtain ⟨k, w⟩ := x
    obtain ⟨hk, -, hm'⟩ := Memory.wf_cons hm
    simp only [Memory.write]
    split
    · next hlt =>
      split
      · next hv =>
        rw [hv]
        exact Memory.read_eq_zero_of_lt (by
          intro y hy
          rcases List.mem_cons.mp hy with rfl | hy
          · exact hlt
          · have := hk y hy; omega)
      · simp [Memory.read]
    · split
      · next hak =>
        subst hak
        split
        · next hv => rw [hv]; exact Memory.read_eq_zero_of_lt hk
        · simp [Memory.read]
      · next hne =>
        simp only [Memory.read]
        rw [if_neg (Ne.symm hne)]
        exact ih hm'

/-- A read after a write of one byte. -/
theorem Memory.read_write {m : Memory} (hm : m.wf) (a b : Nat) (v : Byte) :
    (m.write a v).read b = if b = a then v else m.read b := by
  split
  · next h => subst h; exact Memory.read_write_self hm _ v
  · next h => exact Memory.read_write_ne m v h

/-- Every cell of a written memory is the byte written or a cell it had. -/
theorem Memory.mem_write {m : Memory} {a : Nat} {v : Byte} {x : Host.Cell} (h : x ∈ m.write a v) :
    x = (a, v) ∧ v ≠ 0#8 ∨ x ∈ m := by
  induction m with
  | nil =>
    simp only [Memory.write] at h
    split at h
    · simp at h
    · next hv => exact .inl ⟨by simpa using h, hv⟩
  | cons y m ih =>
    obtain ⟨k, w⟩ := y
    simp only [Memory.write] at h
    split at h
    · split at h
      · exact .inr h
      · next hv =>
        rcases List.mem_cons.mp h with rfl | h
        · exact .inl ⟨rfl, hv⟩
        · exact .inr h
    · split at h
      · split at h
        · exact .inr (List.mem_cons_of_mem _ h)
        · next hv =>
          rcases List.mem_cons.mp h with rfl | h
          · exact .inl ⟨rfl, hv⟩
          · exact .inr (List.mem_cons_of_mem _ h)
      · rcases List.mem_cons.mp h with rfl | h
        · exact .inr (by simp)
        · rcases ih h with h | h
          · exact .inl h
          · exact .inr (List.mem_cons_of_mem _ h)

/-- A write keeps the canonical form. -/
theorem Memory.wf_write {m : Memory} (hm : m.wf) (a : Nat) (v : Byte) : (m.write a v).wf := by
  induction m with
  | nil =>
    simp only [Memory.write]
    split
    · exact ⟨.nil, by simp⟩
    · next hv => exact ⟨by simp, by simpa using hv⟩
  | cons y m ih =>
    obtain ⟨k, w⟩ := y
    obtain ⟨hk, hw, hm'⟩ := Memory.wf_cons hm
    simp only [Memory.write]
    split
    · next hlt =>
      split
      · exact hm
      · next hv =>
        refine ⟨List.pairwise_cons.mpr ⟨fun x hx => ?_, hm.1⟩, fun x hx => ?_⟩
        · rcases List.mem_cons.mp hx with rfl | hx
          · exact hlt
          · exact Nat.lt_trans hlt (hk x hx)
        · rcases List.mem_cons.mp hx with rfl | hx
          · exact hv
          · exact hm.2 x hx
    · split
      · next hak =>
        subst hak
        split
        · exact hm'
        · next hv =>
          refine ⟨List.pairwise_cons.mpr ⟨hk, hm'.1⟩, fun x hx => ?_⟩
          rcases List.mem_cons.mp hx with rfl | hx
          · exact hv
          · exact hm'.2 x hx
      · next hlt hne =>
        have ih' := ih hm'
        refine ⟨List.pairwise_cons.mpr ⟨fun x hx => ?_, ih'.1⟩, fun x hx => ?_⟩
        · rcases Memory.mem_write hx with ⟨rfl, -⟩ | hx
          · simp only; omega
          · exact hk x hx
        · rcases List.mem_cons.mp hx with rfl | hx
          · exact hw
          · exact ih'.2 x hx

/-- Canonical memories that read alike are equal. -/
theorem Memory.ext_of_wf {m n : Memory} (hm : m.wf) (hn : n.wf) (h : ∀ a, m.read a = n.read a) : m = n := by
  induction m generalizing n with
  | nil =>
    cases n with
    | nil => rfl
    | cons y n =>
      have := h y.1
      simp [Memory.read] at this
      exact absurd this.symm (Memory.wf_cons hn).2.1
  | cons x m ih =>
    obtain ⟨k, w⟩ := x
    obtain ⟨hk, hw, hm'⟩ := Memory.wf_cons hm
    cases n with
    | nil =>
      have := h k
      simp [Memory.read] at this
      exact absurd this hw
    | cons y n =>
      obtain ⟨l, u⟩ := y
      obtain ⟨hl, hu, hn'⟩ := Memory.wf_cons hn
      have hkl : k = l := by
        rcases Nat.lt_trichotomy k l with hlt | heq | hlt
        · have := h k
          rw [Memory.read_eq_zero_of_lt (m := (l, u) :: n) (by
            intro z hz
            rcases List.mem_cons.mp hz with rfl | hz
            · exact hlt
            · exact Nat.lt_trans hlt (hl z hz))] at this
          simp [Memory.read] at this
          exact absurd this hw
        · exact heq
        · have := h l
          rw [Memory.read_eq_zero_of_lt (m := (k, w) :: m) (by
            intro z hz
            rcases List.mem_cons.mp hz with rfl | hz
            · exact hlt
            · exact Nat.lt_trans hlt (hk z hz))] at this
          simp [Memory.read] at this
          exact absurd this.symm hu
      subst hkl
      have hwu : w = u := by simpa [Memory.read] using h k
      subst hwu
      rw [ih hm' hn' fun a => ?_]
      by_cases ha : k = a
      · subst ha
        rw [Memory.read_eq_zero_of_lt hk, Memory.read_eq_zero_of_lt hl]
      · simpa [Memory.read, ha] using h a

/-! ## Byte strings -/

theorem Memory.wf_writeBytes {m : Memory} (hm : m.wf) (a : Nat) (bs : Bytes) : (m.writeBytes a bs).wf := by
  induction bs generalizing m a with
  | nil => exact hm
  | cons b bs ih => exact ih (Memory.wf_write hm a b) (a + 1)

/-- A stored string leaves every other byte alone. -/
theorem Memory.read_writeBytes_outside (m : Memory) (a b : Nat) (bs : Bytes)
    (h : b < a ∨ a + bs.length ≤ b) : (m.writeBytes a bs).read b = m.read b := by
  induction bs generalizing m a with
  | nil => rfl
  | cons x bs ih =>
    simp only [List.length_cons] at h
    rw [Memory.writeBytes, ih _ _ (by omega), Memory.read_write_ne _ _ (by omega)]

/-- A stored string is read back byte by byte. -/
theorem Memory.read_writeBytes_inside {m : Memory} (hm : m.wf) (a : Nat) (bs : Bytes) (j : Nat)
    (h : j < bs.length) : (m.writeBytes a bs).read (a + j) = bs[j] := by
  induction bs generalizing m a j with
  | nil => simp at h
  | cons x bs ih =>
    rw [Memory.writeBytes]
    cases j with
    | zero =>
      rw [Memory.read_writeBytes_outside _ _ _ _ (by omega)]
      simpa using Memory.read_write_self hm a x
    | succ j =>
      have := ih (Memory.wf_write hm a x) (a + 1) j (by simpa using h)
      rw [show a + (j + 1) = a + 1 + j by omega, this, List.getElem_cons_succ]

/-- Every cell of a memory a string was stored in is a cell it had or one in the string's range. -/
theorem Memory.mem_writeBytes {m : Memory} {a : Nat} {bs : Bytes} {x : Host.Cell}
    (h : x ∈ m.writeBytes a bs) : (a ≤ x.1 ∧ x.1 < a + bs.length) ∨ x ∈ m := by
  induction bs generalizing m a with
  | nil => exact .inr h
  | cons b bs ih =>
    simp only [List.length_cons]
    rcases ih h with h | h
    · left; omega
    · rcases Memory.mem_write h with ⟨rfl, -⟩ | h
      · left; simp only; omega
      · exact .inr h

/-- Storing the same string twice is storing it once. -/
theorem Memory.writeBytes_twice {m : Memory} (hm : m.wf) (a : Nat) (bs : Bytes) :
    (m.writeBytes a bs).writeBytes a bs = m.writeBytes a bs := by
  have h1 := Memory.wf_writeBytes hm a bs
  refine Memory.ext_of_wf (Memory.wf_writeBytes h1 a bs) h1 fun b => ?_
  by_cases hb : b < a ∨ a + bs.length ≤ b
  · exact Memory.read_writeBytes_outside _ _ _ _ hb
  · obtain ⟨j, rfl⟩ : ∃ j, b = a + j := ⟨b - a, by omega⟩
    rw [Memory.read_writeBytes_inside h1 _ _ _ (by omega), Memory.read_writeBytes_inside hm _ _ _ (by omega)]

@[simp] theorem Memory.length_readBytes (m : Memory) (a n : Nat) : (m.readBytes a n).length = n := by
  induction n generalizing a with
  | zero => rfl
  | succ n ih => simp [Memory.readBytes, ih]

theorem Memory.getElem_readBytes (m : Memory) (a n j : Nat) (h : j < (m.readBytes a n).length) :
    (m.readBytes a n)[j] = m.read (a + j) := by
  induction n generalizing a j with
  | zero => simp [Memory.readBytes] at h
  | succ n ih =>
    cases j with
    | zero => simp [Memory.readBytes]
    | succ j =>
      simp only [Memory.readBytes, List.getElem_cons_succ]
      rw [ih (a + 1) j (by simpa [Memory.readBytes] using h), show a + 1 + j = a + (j + 1) by omega]

/-- A string read depends on its bytes alone. -/
theorem Memory.readBytes_congr {m m' : Memory} {a n : Nat} (h : ∀ j < n, m.read (a + j) = m'.read (a + j)) :
    m.readBytes a n = m'.readBytes a n := by
  refine List.ext_getElem (by simp) fun j h1 h2 => ?_
  rw [Memory.getElem_readBytes, Memory.getElem_readBytes]
  exact h j (by simpa using h1)

/-! ## OUT -/

theorem Memory.mem_clearOut {m : Memory} {x : Host.Cell} : x ∈ m.clearOut ↔ x ∈ m ∧ ¬ inOut x.1 := by
  simp only [Memory.clearOut, List.mem_filter, inOut, Bool.not_eq_true', Bool.and_eq_false_iff,
    decide_eq_false_iff_not]
  constructor <;> rintro ⟨h, h'⟩ <;> exact ⟨h, by omega⟩

theorem Memory.wf_clearOut {m : Memory} (hm : m.wf) : m.clearOut.wf :=
  ⟨hm.1.filter _, fun x hx => hm.2 x (Memory.mem_clearOut.mp hx).1⟩

/-- Every byte of OUT is zero once it is cleared, and every other byte is as it was. -/
theorem Memory.read_clearOut (m : Memory) (a : Nat) : m.clearOut.read a = if inOut a then 0#8 else m.read a := by
  induction m with
  | nil => simp [Memory.clearOut]
  | cons x m ih =>
    obtain ⟨k, w⟩ := x
    simp only [Memory.clearOut, List.filter_cons]
    by_cases hk : inOut k
    · rw [if_neg (by simp; exact hk)]
      refine Eq.trans ih ?_
      by_cases ha : inOut a
      · rw [if_pos ha, if_pos ha]
      · rw [if_neg ha, if_neg ha, Memory.read, if_neg (by rintro rfl; exact ha hk)]
    · rw [if_pos (by simp only [inOut] at hk; simp; omega), Memory.read, Memory.read]
      by_cases hka : k = a
      · subst hka; simp [hk]
      · rw [if_neg hka, if_neg hka]; exact ih

theorem Memory.read_clearOut_inside (m : Memory) {a : Nat} (h : inOut a) : m.clearOut.read a = 0#8 := by
  rw [Memory.read_clearOut, if_pos h]

theorem Memory.read_clearOut_outside (m : Memory) {a : Nat} (h : ¬ inOut a) : m.clearOut.read a = m.read a := by
  rw [Memory.read_clearOut, if_neg h]

/-! ## Words -/

@[simp] theorem le32Bytes_length (w : Word) : (le32Bytes w).length = 4 := rfl

/-- A word is what its four bytes make. -/
theorem le32_le32Bytes (w : Word) :
    le32 (w.extractLsb' 0 8) (w.extractLsb' 8 8) (w.extractLsb' 16 8) (w.extractLsb' 24 8) = w := by
  apply BitVec.eq_of_getLsbD_eq
  intro i hi
  simp only [le32, BitVec.getLsbD_or, BitVec.getLsbD_setWidth, BitVec.getLsbD_shiftLeft,
    BitVec.getLsbD_extractLsb', hi, decide_true, Bool.true_and]
  by_cases h1 : i < 8
  · simp [h1, show i < 16 by omega, show i < 24 by omega]
  · by_cases h2 : i < 16
    · simp [h1, h2, show i < 24 by omega, show i - 8 < 8 by omega, show 8 + (i - 8) = i by omega,
        show i - 8 < 32 by omega]
    · by_cases h3 : i < 24
      · simp [h1, h2, h3, show ¬ i - 8 < 8 by omega, show i - 16 < 8 by omega, show 16 + (i - 16) = i by omega,
          show i - 16 < 32 by omega]
      · simp [h1, h2, h3, show ¬ i - 8 < 8 by omega, show ¬ i - 16 < 8 by omega, show i - 24 < 8 by omega,
          show 24 + (i - 24) = i by omega, show i - 24 < 32 by omega]

/-- The bytes of a word. -/
theorem le32_extract (b0 b1 b2 b3 : Byte) :
    (le32 b0 b1 b2 b3).extractLsb' 0 8 = b0 ∧ (le32 b0 b1 b2 b3).extractLsb' 8 8 = b1 ∧
    (le32 b0 b1 b2 b3).extractLsb' 16 8 = b2 ∧ (le32 b0 b1 b2 b3).extractLsb' 24 8 = b3 := by
  refine ⟨?_, ?_, ?_, ?_⟩ <;> (apply BitVec.eq_of_getLsbD_eq; intro i hi)
  · simp [le32, hi, show i < 16 by omega, show i < 24 by omega, show i < 32 by omega]
  · simp [le32, hi, show ¬ 8 + i < 8 by omega, show 8 + i < 16 by omega, show 8 + i < 24 by omega,
      show 8 + i < 32 by omega]
  · have e1 : b0.getLsbD (16 + i) = false := BitVec.getLsbD_of_ge _ _ (by omega)
    have e2 : b1.getLsbD (16 + i - 8) = false := BitVec.getLsbD_of_ge _ _ (by omega)
    simp [le32, hi, show ¬ 16 + i < 16 by omega, show ¬ 16 + i < 8 by omega, show 16 + i < 24 by omega,
      show 16 + i < 32 by omega, e1, e2]
  · have e1 : b0.getLsbD (24 + i) = false := BitVec.getLsbD_of_ge _ _ (by omega)
    have e2 : b1.getLsbD (24 + i - 8) = false := BitVec.getLsbD_of_ge _ _ (by omega)
    have e3 : b2.getLsbD (24 + i - 16) = false := BitVec.getLsbD_of_ge _ _ (by omega)
    simp [le32, hi, show ¬ 24 + i < 16 by omega, show ¬ 24 + i < 8 by omega, show ¬ 24 + i < 24 by omega,
      show 24 + i < 32 by omega, e1, e2, e3]

/-- Byte `j` of a word read is the byte at its offset (R67). -/
theorem Memory.readWord_extract (m : Memory) (a : Nat) {j : Nat} (hj : j < 4) :
    (m.readWord a).extractLsb' (8 * j) 8 = m.read (a + j) := by
  obtain ⟨h0, h1, h2, h3⟩ := le32_extract (m.read a) (m.read (a + 1)) (m.read (a + 2)) (m.read (a + 3))
  have : j = 0 ∨ j = 1 ∨ j = 2 ∨ j = 3 := by omega
  rcases this with rfl | rfl | rfl | rfl
  · exact h0
  · exact h1
  · exact h2
  · exact h3

/-- A word read after it was stored. -/
theorem Memory.readWord_writeWord {m : Memory} (hm : m.wf) (a : Nat) (w : Word) :
    (m.writeWord a w).readWord a = w := by
  have key := fun j h => Memory.read_writeBytes_inside hm a (le32Bytes w) j h
  have h0 := key 0 (by simp)
  have h1 := key 1 (by simp)
  have h2 := key 2 (by simp)
  have h3 := key 3 (by simp)
  simp only [Nat.add_zero, le32Bytes, List.getElem_cons_zero, List.getElem_cons_succ] at h0 h1 h2 h3
  simp only [Memory.readWord, Memory.writeWord, le32Bytes, h0, h1, h2, h3]
  exact le32_le32Bytes w

theorem Memory.wf_writeWord {m : Memory} (hm : m.wf) (a : Nat) (w : Word) : (m.writeWord a w).wf :=
  Memory.wf_writeBytes hm a _

/-- The bytes a word read looks at decide it. -/
theorem Memory.readWord_congr {m m' : Memory} {a : Nat} (h : ∀ j < 4, m.read (a + j) = m'.read (a + j)) :
    m.readWord a = m'.readWord a := by
  have h0 := h 0 (by omega)
  have h1 := h 1 (by omega)
  have h2 := h 2 (by omega)
  have h3 := h 3 (by omega)
  simp only [Nat.add_zero] at h0
  simp only [Memory.readWord, h0, h1, h2, h3]

end Sys2Proof.Machine
end

