-- ==== Sys2Proof/Laws/Decode.lean ====
section
/-! SUPPORT. The decoders: the fields of an encoded command, and what an offset selects. -/

namespace Sys2Proof

/-! ## The command word -/

/-- A word is its four fields (R92). -/
theorem word_ext {w v : Word} (hop : fieldOp w = fieldOp v) (harg : fieldArg w = fieldArg v)
    (hg : fieldG w = fieldG v) (hrsv : fieldRsv w = fieldRsv v) : w = v := by
  apply BitVec.eq_of_getLsbD_eq
  intro i hi
  by_cases c0 : i < 8
  · have := congrArg (·.getLsbD i) hop
    simpa [fieldOp, c0] using this
  by_cases c1 : i < 16
  · have := congrArg (·.getLsbD (i - 8)) harg
    simpa [fieldArg, show i - 8 < 8 by omega, show 8 + (i - 8) = i by omega] using this
  by_cases c2 : i = 16
  · subst c2; exact hg
  · have := congrArg (·.getLsbD (i - 17)) hrsv
    simpa [fieldRsv, show i - 17 < 15 by omega, show 17 + (i - 17) = i by omega] using this

theorem word_ext_iff {w v : Word} :
    w = v ↔ fieldOp w = fieldOp v ∧ fieldArg w = fieldArg v ∧ fieldG w = fieldG v ∧ fieldRsv w = fieldRsv v :=
  ⟨fun h => by subst h; simp, fun ⟨a, b, c, d⟩ => word_ext a b c d⟩

@[simp] theorem fieldOp_and (w m : Word) : fieldOp (w &&& m) = fieldOp w &&& fieldOp m := BitVec.extractLsb'_and
@[simp] theorem fieldArg_and (w m : Word) : fieldArg (w &&& m) = fieldArg w &&& fieldArg m := BitVec.extractLsb'_and
@[simp] theorem fieldRsv_and (w m : Word) : fieldRsv (w &&& m) = fieldRsv w &&& fieldRsv m := BitVec.extractLsb'_and
@[simp] theorem fieldG_and (w m : Word) : fieldG (w &&& m) = (fieldG w && fieldG m) := BitVec.getLsbD_and

theorem decode_eq_nop {w : Word} : decode w = .ok .nop ↔ w = 0#32 := by
  constructor
  · intro h
    unfold decode at h
    repeat' (split at h)
    all_goals cases h
    assumption
  · rintro rfl; rfl

theorem decode_eq_deriveDef {w : Word} : decode w = .ok .deriveDef ↔ w = 1#32 := by
  constructor
  · intro h
    unfold decode at h
    repeat' (split at h)
    all_goals cases h
    assumption
  · rintro rfl; rfl

theorem decode_eq_derive {w : Word} {n : Byte} :
    decode w = .ok (.derive n) ↔ (fieldRsv w = 0#15 ∧ fieldG w = true ∧ fieldOp w = 0x01#8) ∧ n = fieldArg w := by
  constructor
  · intro h
    unfold decode at h
    repeat' (split at h)
    all_goals cases h
    next h => exact ⟨h, rfl⟩
  · rintro ⟨h, rfl⟩
    have a : w ≠ 0#32 := by rintro rfl; simp [fieldG] at h
    have b : w ≠ 1#32 := by rintro rfl; simp [fieldG] at h
    unfold decode
    simp [a, b, h]

theorem decode_eq_verify {w : Word} {n : Byte} :
    decode w = .ok (.verify n) ↔ (fieldRsv w = 0#15 ∧ fieldG w = true ∧ fieldOp w = 0x02#8) ∧ n = fieldArg w := by
  constructor
  · intro h
    unfold decode at h
    repeat' (split at h)
    all_goals cases h
    next h => exact ⟨h, rfl⟩
  · rintro ⟨h, rfl⟩
    have a : w ≠ 0#32 := by rintro rfl; simp [fieldG] at h
    have b : w ≠ 1#32 := by rintro rfl; simp [fieldG] at h
    unfold decode
    simp [a, b, h]

/-- ILLEGAL is what no command's test takes. -/
theorem decode_eq_error {w : Word} :
    (∃ why, decode w = .error why) ↔ w ≠ 0#32 ∧ w ≠ 1#32 ∧
      ¬ (fieldRsv w = 0#15 ∧ fieldG w = true ∧ fieldOp w = 0x01#8) ∧
      ¬ (fieldRsv w = 0#15 ∧ fieldG w = true ∧ fieldOp w = 0x02#8) := by
  constructor
  · rintro ⟨y, h⟩
    unfold decode at h
    repeat' (split at h)
    all_goals first | (cases h; done) | skip
    exact ⟨by assumption, by assumption, by assumption, by assumption⟩
  · rintro ⟨a, b, c, d⟩
    exact ⟨illegalWord w, by unfold decode; rw [if_neg a, if_neg b, if_neg c, if_neg d]⟩

/-! ## The port offset -/

/-- The size of a slot's window region (R62), mapped or not. -/
def winSize : Slot → Nat
  | .a => 0x8000
  | .b => 0x1000
  | .c => 0x1000

/-- What a region says of the offset that selects it. -/
def Region.at (r : Region) (n : Nat) : Prop :=
  match r with
  | .reg r => n = regOffset r
  | .out o => n = outBase + o ∧ o < outSize
  | .win s o => n = winBase s + o ∧ o < winSize s
  | .reserved => True

/-- A register's offset is the one it is listed under, and no other. -/
theorem decodeReg_eq_some {n : Nat} {r : Reg} : decodeReg n = some r ↔ n = regOffset r := by
  constructor
  · intro h
    unfold decodeReg at h
    repeat'
      split at h
      · next hn => cases h; exact hn
    cases h
  · rintro rfl
    cases r with
    | cap s => cases s <;> rfl
    | len s => cases s <;> rfl
    | _ => rfl

/-- The one inversion lemma of the address decoder. -/
theorem decodeAddr_at (a : Addr) : (decodeAddr a).at a.toNat := by
  have ha : a.toNat < 65536 := a.isLt
  unfold decodeAddr
  dsimp only
  split
  · simp only [Region.at, outBase, outSize]; omega
  split
  · simp only [Region.at, winBase, winSize]; omega
  split
  · simp only [Region.at, winBase, winSize]; omega
  split
  · simp only [Region.at, winBase, winSize]; omega
  cases h : decodeReg a.toNat with
  | none => trivial
  | some r => exact decodeReg_eq_some.mp h

theorem decodeAddr_out {a : Addr} {o : Nat} (h : decodeAddr a = .out o) :
    a.toNat = outBase + o ∧ o < outSize := by
  have := decodeAddr_at a
  rwa [h] at this

theorem decodeAddr_win {a : Addr} {s : Slot} {o : Nat} (h : decodeAddr a = .win s o) :
    a.toNat = winBase s + o ∧ o < winSize s := by
  have := decodeAddr_at a
  rwa [h] at this

/-- The offset of a register selects it. -/
theorem decodeAddr_reg (r : Reg) : decodeAddr (BitVec.ofNat 16 (regOffset r)) = .reg r := by
  cases r with
  | cap s => cases s <;> rfl
  | len s => cases s <;> rfl
  | _ => rfl

/-- The offset of a byte of a window region selects it. -/
theorem decodeAddr_winBase (s : Slot) {o : Nat} (h : o < winSize s) :
    decodeAddr (BitVec.ofNat 16 (winBase s + o)) = .win s o := by
  have hn : (BitVec.ofNat 16 (winBase s + o)).toNat = winBase s + o := by
    rw [BitVec.toNat_ofNat]; cases s <;> simp only [winBase, winSize] at * <;> omega
  unfold decodeAddr
  dsimp only
  generalize (BitVec.ofNat 16 (winBase s + o)).toNat = n at hn ⊢
  have ho : o = n - winBase s := by omega
  subst ho
  cases s <;> simp only [winBase, winSize] at h hn ⊢
  · rw [if_neg (by omega), if_neg (by omega), if_neg (by omega), if_pos (by omega)]
  · rw [if_neg (by omega), if_pos (by omega)]
  · rw [if_neg (by omega), if_neg (by omega), if_pos (by omega)]

/-- The offset of a byte of OUT selects it. -/
theorem decodeAddr_outBase {o : Nat} (h : o < outSize) :
    decodeAddr (BitVec.ofNat 16 (outBase + o)) = .out o := by
  simp only [outBase, outSize] at *
  have hn : (BitVec.ofNat 16 (0x0100 + o)).toNat = 0x0100 + o := by rw [BitVec.toNat_ofNat]; omega
  unfold decodeAddr
  dsimp only
  rw [hn, if_pos (by omega), Nat.add_sub_cancel_left]

/-- A capacity within R6 to R8 lies in the slot's window region. -/
theorem Config.wf.cap_le {cfg : Config} (h : cfg.wf) (s : Slot) : cfg.cap s ≤ winSize s := by
  obtain ⟨⟨-, -, ha⟩, ⟨-, -, hb⟩, ⟨-, -, hc⟩⟩ := h
  cases s <;> simp only [Config.cap, winSize] <;> omega

theorem Config.wf.cap_mod {cfg : Config} (h : cfg.wf) (s : Slot) : cfg.cap s % 4 = 0 := by
  obtain ⟨⟨ha, -⟩, ⟨hb, -⟩, ⟨hc, -⟩⟩ := h
  cases s <;> assumption

/-- The window regions and OUT do not meet. -/
theorem winBase_not_inOut (s : Slot) (o : Nat) : ¬ Machine.inOut (winBase s + o) := by
  cases s <;> simp only [Machine.inOut, outBase, outSize, winBase] <;> omega

/-- Two slots' regions do not meet. -/
theorem winBase_disjoint {s x : Slot} (h : s ≠ x) {o p : Nat} (ho : o < winSize s) (hp : p < winSize x) :
    winBase s + o ≠ winBase x + p := by
  cases s <;> cases x <;> simp only [winBase, winSize] at * <;> first | omega | exact absurd rfl h

namespace Machine

/-- `addr[1:0] = 00` as arithmetic. -/
theorem aligned_iff (a : Addr) : aligned a = true ↔ a.toNat % 4 = 0 := by
  simp only [aligned, beq_iff_eq, BitVec.toNat_eq, BitVec.extractLsb'_toNat, BitVec.toNat_ofNat]
  simp

end Machine
end Sys2Proof
end

