-- ==== Sys2Proof/Laws/Machine.lean ====
section
/-! SUPPORT. What each shared operation can do, once: the guard, the two engine performances, a transaction,
a move.  Later proofs cite these and unfold none of them. -/

namespace Sys2Proof.Machine

/-! ## The guard (R115 to R118) -/

theorem Hkx.guard1_eq_none {d : Hkx} {cfg : Config} {s : Slot} :
    d.guard1 cfg s = none ↔ d.present s = true ∧ d.len s ≤ cfg.cap s := by
  simp only [Hkx.guard1]
  cases d.present s <;> simp

/-- The guard passes exactly when every slot is present and within its capacity. -/
theorem Hkx.guard_eq_none {d : Hkx} {cfg : Config} : d.guard cfg = none ↔ d.operandsUsable cfg := by
  simp only [Hkx.guard, Option.or_eq_none_iff, Hkx.guard1_eq_none, Hkx.operandsUsable]
  exact ⟨fun ⟨ha, hb, hc⟩ s => by cases s <;> assumption, fun h => ⟨h .a, h .b, h .c⟩⟩

/-- Every answer of the guard is TYPE or CAPACITY for one of the slots. -/
theorem Hkx.guard_listed {d : Hkx} {cfg : Config} {r : BitVec 4 × BitVec 3} (h : d.guard cfg = some r) :
    ∃ s, r = (errType, argId s) ∨ r = (errCapacity, argId s) := by
  have one : ∀ {s}, d.guard1 cfg s = some r → r = (errType, argId s) ∨ r = (errCapacity, argId s) := by
    intro s hs
    simp only [Hkx.guard1] at hs
    split at hs
    · exact .inl (Option.some.inj hs).symm
    · split at hs
      · exact .inr (Option.some.inj hs).symm
      · cases hs
  simp only [Hkx.guard, Option.or_eq_some_iff] at h
  rcases h with h | ⟨-, h | ⟨-, h⟩⟩
  · exact ⟨.a, one h⟩
  · exact ⟨.b, one h⟩
  · exact ⟨.c, one h⟩

@[simp] theorem Hkx.bytes_length (d : Hkx) (x : Slot) : (d.bytes x).length = d.len x := by simp [Hkx.bytes]

/-- The issue of a DERIVE leaves the operands as they are: OUT is no part of a window. -/
theorem Hkx.bytes_startDerive (d : Hkx) (n : Byte) (x : Slot) : (d.startDerive n).bytes x = d.bytes x := by
  simp only [Hkx.bytes, Hkx.startDerive_len, Hkx.startDerive_mem]
  exact Memory.readBytes_congr fun j _ => Memory.read_clearOut_outside _ (winBase_not_inOut x j)

/-- The guard's answer in the order of R202. -/
theorem afterGuard_eq (cfg : Config) (d : Hkx) (r : BitVec 4 × BitVec 3) :
    afterGuard cfg d r = (d.guard cfg).getD r := by
  simp only [afterGuard, Hkx.guard, Hkx.guard1]
  cases d.present .a <;> cases d.present .b <;> cases d.present .c <;>
    by_cases ha : d.len .a > cfg.cap .a <;> by_cases hb : d.len .b > cfg.cap .b <;>
    by_cases hc : d.len .c > cfg.cap .c <;> simp [ha, hb, hc] <;> decide

/-- The guard looks at PRESENT and LEN only. -/
theorem Hkx.guard_congr {d e : Hkx} {cfg : Config} (h : d.slot = e.slot) : d.guard cfg = e.guard cfg := by
  simp [Hkx.guard, Hkx.guard1, Hkx.present, Hkx.len, h]

/-! ## DERIVE -/

/-- The number of chunks of `DeriveFn`. -/
theorem deriveFn_length (h : Bytes → Bytes → Bytes32) (input salt info : Bytes) {n : Nat} (h1 : 1 ≤ n) (h3 : n ≤ 3) :
    (deriveFn h input salt info n).length = n := by
  have : n = 1 ∨ n = 2 ∨ n = 3 := by omega
  rcases this with rfl | rfl | rfl <;> rfl

/-- The length of the chunks' bytes. -/
theorem chunks_length (cs : List Bytes32) : (cs.flatMap Vector.toList).length = 32 * cs.length := by
  induction cs with
  | nil => rfl
  | cons c cs ih => simp only [List.flatMap_cons, List.length_append, ih, List.length_cons, Vector.length_toList]; omega

/-- Byte `j` of chunk `k` among the chunks' bytes. -/
theorem chunks_getElem (cs : List Bytes32) {k j : Nat} (hk : k < cs.length) (hj : j < 32) :
    ∃ h, (cs.flatMap Vector.toList)[32 * k + j]'h = (cs[k])[j] := by
  induction cs generalizing k with
  | nil => simp at hk
  | cons c cs ih =>
    have hl : c.toList.length = 32 := by simp
    cases k with
    | zero =>
      refine ⟨by rw [chunks_length]; simp at *; omega, ?_⟩
      simp only [List.flatMap_cons]
      rw [List.getElem_append_left (by omega)]
      simp
    | succ k =>
      obtain ⟨h, e⟩ := ih (k := k) (by simpa using hk)
      refine ⟨by rw [chunks_length] at *; simp at *; omega, ?_⟩
      simp only [List.flatMap_cons, List.getElem_cons_succ]
      rw [← e, List.getElem_append_right (by omega)]
      congr 1
      omega

/-- Everything the engine step of a DERIVE can do: end with an error of R200, or store the chunks. -/
theorem engineDerive_cases (cfg : Config) (d : Hkx) (n : Byte) :
    (∃ r, d.guard cfg = some r ∧ engineDerive cfg d n = d.complete r.1 r.2) ∨
    (d.guard cfg = none ∧ d.len .b ≠ 32 ∧ engineDerive cfg d n = d.complete errLength (argId .b)) ∨
    (d.guard cfg = none ∧ d.len .b = 32 ∧ (n.toNat < 1 ∨ n.toNat > 3) ∧
      engineDerive cfg d n = d.complete errRange argField) ∨
    (d.guard cfg = none ∧ d.len .b = 32 ∧ 1 ≤ n.toNat ∧ n.toNat ≤ 3 ∧
      engineDerive cfg d n =
        (d.storeChunks (deriveFn (hmac cfg.hmac) (d.bytes .a) (d.bytes .b) (d.bytes .c) n.toNat) n).complete
          errNone argNone) := by
  simp only [engineDerive]
  cases hg : d.guard cfg with
  | some r => exact .inl ⟨r, rfl, rfl⟩
  | none =>
    right
    by_cases hb : d.len .b = 32
    · right
      by_cases hn : n.toNat < 1 ∨ n.toNat > 3
      · exact .inl ⟨rfl, hb, hn, by simp only [hb, hn, ne_eq, not_true_eq_false, if_false, if_true]⟩
      · exact .inr ⟨rfl, hb, by omega, by omega, by simp only [hb, hn, ne_eq, not_true_eq_false, if_false]⟩
    · exact .inl ⟨rfl, hb, by simp [hb]⟩

/-! ## VERIFY -/

/-- The comparator's accumulator is a bitwise OR: it ends 0 exactly when it starts 0 and no pair differs. -/
theorem cmpAcc_eq_zero {x y : Bytes} (h : x.length = y.length) (acc : Byte) :
    cmpAcc acc x y = 0#8 ↔ acc = 0#8 ∧ x = y := by
  induction x generalizing y acc with
  | nil =>
    cases y with
    | nil => simp [cmpAcc]
    | cons _ _ => simp at h
  | cons a x ih =>
    cases y with
    | nil => simp at h
    | cons b y =>
      have hor : acc ||| (a ^^^ b) = 0#8 ↔ acc = 0#8 ∧ a = b := by
        rw [BitVec.or_eq_zero_iff, BitVec.xor_eq_zero_iff]
      rw [cmpAcc, ih (by simpa using h), hor, List.cons.injEq, and_assoc]

/-- `CTEQ` is equality of byte strings of one length (R14). -/
theorem ctEq_iff {x y : Bytes} (h : x.length = y.length) : ctEq x y = true ↔ x = y := by
  simp [ctEq, cmpAcc_eq_zero h]

/-- Every result of `VerifyFn` is one of R200's for VERIFY. -/
theorem verifyFn_listed (h : Bytes → Bytes → Bytes32) (data key mac : Bytes) (n : Nat) :
    verifyFn h data key mac n ∈
      [(errNone, argNone), (errLength, argId .c), (errLength, argField), (errAuth, argId .c)] := by
  simp only [verifyFn]
  repeat' split
  all_goals simp

/-- Everything the engine step of a VERIFY can do: end with the guard's error or `VerifyFn`'s result. -/
theorem engineVerify_cases (cfg : Config) (d : Hkx) (n : Byte) :
    (∃ r, d.guard cfg = some r ∧ engineVerify cfg d n = d.complete r.1 r.2) ∨
    (d.guard cfg = none ∧ ∃ r, r = verifyFn (hmac cfg.hmac) (d.bytes .a) (d.bytes .b) (d.bytes .c) n.toNat ∧
      engineVerify cfg d n = d.complete r.1 r.2) := by
  simp only [engineVerify]
  cases hg : d.guard cfg with
  | some r => exact .inl ⟨r, rfl, rfl⟩
  | none => exact .inr ⟨rfl, _, rfl, rfl⟩

/-! ## The engine step (R120) -/

theorem engineStep_derive {s : State} {n : Byte} (h : s.dev.pend = .derive n) :
    engineStep s = .next { s with dev := engineDerive s.cfg s.dev n } := by simp [engineStep, h]

theorem engineStep_verify {s : State} {n : Byte} (h : s.dev.pend = .verify n) :
    engineStep s = .next { s with dev := engineVerify s.cfg s.dev n } := by simp [engineStep, h]

/-- What an engine step that goes on did. -/
theorem engineStep_cases {s t : State} (h : engineStep s = .next t) :
    (∃ n, s.dev.pend = .derive n ∧ t = { s with dev := engineDerive s.cfg s.dev n }) ∨
    (∃ n, s.dev.pend = .verify n ∧ t = { s with dev := engineVerify s.cfg s.dev n }) := by
  cases hp : s.dev.pend with
  | none => simp [engineStep, hp] at h
  | derive n => rw [engineStep_derive hp] at h; cases h; exact .inl ⟨n, rfl, rfl⟩
  | verify n => rw [engineStep_verify hp] at h; cases h; exact .inr ⟨n, rfl, rfl⟩

/-! ## Issue (R110) -/

/-- The device after a CMD write of a word, while idle. -/
def Hkx.issued (d : Hkx) (w : Word) : Hkx :=
  match decode w with
  | .ok .nop => d.finishAtIssue errNone
  | .ok .deriveDef => d.startDerive 3#8
  | .ok (.derive n) => d.startDerive n
  | .ok (.verify n) => d.startVerify n
  | .error _ => d.finishAtIssue errIllegalCmd

/-- A command while idle. -/
theorem exec_idle {s : State} (hb : s.dev.busy = false) (i : Instr) :
    exec i s = .next (s.okay
      (match i with
       | .nop => s.dev.finishAtIssue errNone
       | .deriveDef => s.dev.startDerive 3#8
       | .derive n => s.dev.startDerive n
       | .verify n => s.dev.startVerify n) 0#32) := by
  cases i <;> simp [exec, execNop, execDerive, execDeriveDef, execVerify, State.issueCmd_idle hb]

/-- A command while busy. -/
theorem exec_busy {s : State} (hb : s.dev.busy = true) (i : Instr) : exec i s = .next s.busError := by
  cases i <;> simp [exec, execNop, execDerive, execDeriveDef, execVerify, State.issueCmd_busy hb]

/-- A CMD write always goes on. -/
theorem issue_eq (s : State) (w : Word) : issue s w = .next (s.issueCmd fun d => d.issued w) := by
  simp only [issue, Hkx.issued]
  cases decode w with
  | error e => rfl
  | ok i => cases i <;> rfl

/-! ## A transaction (R72) -/

/-- A 4-byte read at an aligned offset: what R72 answers, by what the offset selects. -/
theorem hostStep_rd (s : State) {a : Addr} (ha : aligned a = true) :
    hostStep s (rd a) =
      match decodeAddr a with
      | .reg .id => .next (s.okay s.dev idWord)
      | .reg (.cap x) => .next (s.okay s.dev (capWord s.cfg x))
      | .reg .cmd => .next (s.okay s.dev 0#32)
      | .reg .status => .next (s.okay s.dev s.dev.statusWord)
      | .reg .irqEn => .next (s.okay s.dev s.dev.irqEnWord)
      | .reg (.len x) => .next (s.okay s.dev (s.dev.lenWord x))
      | .out o => .next (s.okay s.dev (s.dev.mem.readWord (outBase + o)))
      | .win x o =>
        if o ≥ s.cfg.cap x then .next s.busError
        else .next (s.okay s.dev (s.dev.mem.readWord (winBase x + o)))
      | .reserved => .next s.busError := by
  unfold hostStep
  simp only [rd, ha]
  rfl

/-- A 4-byte write at an aligned offset while idle: what R72 does, by what the offset selects. -/
theorem hostStep_wr {s : State} (hb : s.dev.busy = false) {a : Addr} (ha : aligned a = true) (w : Word) :
    hostStep s (wr a w) =
      match decodeAddr a with
      | .reg .id => .next s.busError
      | .reg (.cap _) => .next s.busError
      | .reg .cmd => issue s w
      | .reg .status => .next (s.okay (s.dev.writeStatus w) 0#32)
      | .reg .irqEn => .next (s.okay (s.dev.writeIrqEn w) 0#32)
      | .reg (.len x) => .next (s.okay (s.dev.writeLen x w) 0#32)
      | .out _ => .next s.busError
      | .win x o => if o ≥ s.cfg.cap x then .next s.busError else .next (s.okay (s.dev.writeWin x o w) 0#32)
      | .reserved => .next s.busError := by
  unfold hostStep
  simp only [wr, ha, hb]
  rfl

/-- Any write while busy is a bus error (R206(f)). -/
theorem hostStep_write_busy {s : State} (hb : s.dev.busy = true) {t : Transaction} (hk : t.kind = .write) :
    hostStep s t = .next s.busError := by
  unfold hostStep
  split
  · rfl
  · rw [if_pos ⟨hk, hb⟩]

/-- The offset of a register is aligned. -/
theorem aligned_reg (r : Reg) : aligned (BitVec.ofNat 16 (regOffset r)) = true := by
  cases r with
  | cap s => cases s <;> rfl
  | len s => cases s <;> rfl
  | _ => rfl

/-- A CMD write while idle. -/
theorem hostStep_cmd {s : State} (hb : s.dev.busy = false) (w : Word) :
    hostStep s (wr 0x0010#16 w) = .next (s.okay (s.dev.issued w) 0#32) := by
  have h := hostStep_wr hb (aligned_reg .cmd) w
  rw [decodeAddr_reg] at h
  simp only [issue_eq, State.issueCmd_idle hb] at h
  exact h

theorem toNat_winOffset {x : Slot} {o : Nat} (ho : o < winSize x) :
    (BitVec.ofNat 16 (winBase x + o)).toNat = winBase x + o := by
  rw [BitVec.toNat_ofNat]; cases x <;> simp only [winBase, winSize] at * <;> omega

theorem aligned_winOffset {x : Slot} {o : Nat} (h4 : o % 4 = 0) (ho : o < winSize x) :
    aligned (BitVec.ofNat 16 (winBase x + o)) = true := by
  rw [aligned_iff, toNat_winOffset ho]; cases x <;> simp only [winBase] <;> omega

/-- A read of a window word (R71). -/
theorem hostStep_rd_win {s : State} {x : Slot} {o : Nat} (hc : s.cfg.wf) (h4 : o % 4 = 0) (ho : o < s.cfg.cap x) :
    hostStep s (rd (BitVec.ofNat 16 (winBase x + o))) =
      .next (s.okay s.dev (s.dev.mem.readWord (winBase x + o))) := by
  have hsz : o < winSize x := Nat.lt_of_lt_of_le ho (Config.wf.cap_le hc x)
  have h := hostStep_rd s (aligned_winOffset h4 hsz)
  rw [decodeAddr_winBase x hsz] at h
  simpa only [ge_iff_le, show ¬ s.cfg.cap x ≤ o by omega, if_false] using h

/-- A write of a window word while idle (R70). -/
theorem hostStep_wr_win {s : State} {x : Slot} {o : Nat} (w : Word) (hb : s.dev.busy = false) (hc : s.cfg.wf)
    (h4 : o % 4 = 0) (ho : o < s.cfg.cap x) :
    hostStep s (wr (BitVec.ofNat 16 (winBase x + o)) w) = .next (s.okay (s.dev.writeWin x o w) 0#32) := by
  have hsz : o < winSize x := Nat.lt_of_lt_of_le ho (Config.wf.cap_le hc x)
  have h := hostStep_wr hb (aligned_winOffset h4 hsz) w
  rw [decodeAddr_winBase x hsz] at h
  simpa only [ge_iff_le, show ¬ s.cfg.cap x ≤ o by omega, if_false] using h

/-- A read of a word of OUT (R71). -/
theorem hostStep_rd_out {s : State} {o : Nat} (h4 : o % 4 = 0) (ho : o < outSize) :
    hostStep s (rd (BitVec.ofNat 16 (outBase + o))) = .next (s.okay s.dev (s.dev.mem.readWord (outBase + o))) := by
  have hn : (BitVec.ofNat 16 (outBase + o)).toNat = outBase + o := by
    rw [BitVec.toNat_ofNat]; simp only [outBase, outSize] at *; omega
  have hal : aligned (BitVec.ofNat 16 (outBase + o)) = true := by
    rw [aligned_iff, hn]; simp only [outBase]; omega
  have h := hostStep_rd s hal
  rw [decodeAddr_outBase ho] at h
  exact h

/-- The fields of the STATUS word (R26). -/
theorem Hkx.statusWord_fields (d : Hkx) :
    d.statusWord.getLsbD 0 = d.busy ∧ d.statusWord.getLsbD 1 = d.done ∧ d.statusWord.getLsbD 2 = d.berr ∧
    d.statusWord.extractLsb' 3 5 = 0#5 ∧ d.statusWord.extractLsb' 8 4 = d.err ∧
    d.statusWord.extractLsb' 12 3 = d.errArg ∧ d.statusWord.getLsbD 15 = false ∧
    d.statusWord.extractLsb' 16 2 = d.outCount ∧ d.statusWord.extractLsb' 18 14 = 0#14 := by
  obtain ⟨b, dn, be, e, ea, oc, _, _, _, _, _, _⟩ := d
  simp only [Hkx.statusWord]
  revert e ea oc
  cases b <;> cases dn <;> cases be <;> decide +kernel

/-- Everything a transaction can do: a bus error; or OKAY, having changed nothing, or having written CMD,
STATUS, IRQ_EN, an x_LEN or a window word. -/
theorem hostStep_cases (s : State) (t : Transaction) :
    hostStep s t = .next s.busError ∨
    (∃ v, hostStep s t = .next (s.okay s.dev v) ∧ t.kind = .read) ∨
    (t.size = 4#3 ∧ aligned t.addr = true ∧ t.kind = .write ∧ s.dev.busy = false ∧
      ((decodeAddr t.addr = .reg .cmd ∧ hostStep s t = .next (s.okay (s.dev.issued t.wdata) 0#32)) ∨
       (decodeAddr t.addr = .reg .status ∧ hostStep s t = .next (s.okay (s.dev.writeStatus t.wdata) 0#32)) ∨
       (decodeAddr t.addr = .reg .irqEn ∧ hostStep s t = .next (s.okay (s.dev.writeIrqEn t.wdata) 0#32)) ∨
       (∃ x, decodeAddr t.addr = .reg (.len x) ∧ hostStep s t = .next (s.okay (s.dev.writeLen x t.wdata) 0#32)) ∨
       (∃ x o, decodeAddr t.addr = .win x o ∧ o < s.cfg.cap x ∧
          hostStep s t = .next (s.okay (s.dev.writeWin x o t.wdata) 0#32)))) := by
  unfold hostStep
  split
  · exact .inl rfl
  · next h1 =>
    obtain ⟨hsize, hal⟩ : t.size = 4#3 ∧ aligned t.addr = true := by
      simp only [not_or, ne_eq, Decidable.not_not, Bool.not_eq_false] at h1
      exact h1
    split
    · exact .inl rfl
    · next h2 =>
      have hk : t.kind = .read ∨ t.kind = .write ∧ s.dev.busy = false := by
        cases hk : t.kind with
        | read => exact .inl rfl
        | write => exact .inr ⟨rfl, by simpa [hk] using h2⟩
      have ro : ∀ v, (Host.Outcome.next (readOnly s t.kind v) : Host.Outcome State Fault Refusal) = .next s.busError ∨
          ∃ v, (Host.Outcome.next (readOnly s t.kind v) : Host.Outcome State Fault Refusal) = .next (s.okay s.dev v) ∧
            t.kind = .read := by
        intro v
        rcases hk with hk | ⟨hk, -⟩
        · exact .inr ⟨v, by rw [hk]; rfl, hk⟩
        · exact .inl (by rw [hk]; rfl)
      rcases hk with hk | ⟨hk, hb⟩
      · cases decodeAddr t.addr with
        | reg r => cases r <;> exact .inr (.inl ⟨_, by simp only [hk]; rfl, hk⟩)
        | out o => exact .inr (.inl ⟨_, by simp only [hk]; rfl, hk⟩)
        | win x o =>
          simp only
          split
          · exact .inl rfl
          · exact .inr (.inl ⟨_, by simp only [hk]; rfl, hk⟩)
        | reserved => exact .inl rfl
      · cases hd : decodeAddr t.addr with
        | reg r =>
          cases r with
          | id => exact .inl (by simp only [hk]; rfl)
          | cap x => exact .inl (by simp only [hk]; rfl)
          | cmd =>
            refine .inr (.inr ⟨hsize, hal, hk, hb, .inl ⟨rfl, ?_⟩⟩)
            simp only [hk]
            rw [issue_eq, State.issueCmd_idle hb]
          | status => exact .inr (.inr ⟨hsize, hal, hk, hb, .inr (.inl ⟨rfl, by simp only [hk]; rfl⟩)⟩)
          | irqEn => exact .inr (.inr ⟨hsize, hal, hk, hb, .inr (.inr (.inl ⟨rfl, by simp only [hk]; rfl⟩))⟩)
          | len x =>
            exact .inr (.inr ⟨hsize, hal, hk, hb, .inr (.inr (.inr (.inl ⟨x, rfl, by simp only [hk]; rfl⟩)))⟩)
        | out o => exact .inl (by simp only [hk]; rfl)
        | win x o =>
          simp only
          split
          · exact .inl rfl
          · next ho =>
            refine .inr (.inr ⟨hsize, hal, hk, hb, .inr (.inr (.inr (.inr ⟨x, o, rfl, by omega, ?_⟩)))⟩)
            simp only [hk]; rfl
        | reserved => exact .inl rfl

/-- A transaction always goes on. -/
theorem hostStep_next (s : State) (t : Transaction) : ∃ s', hostStep s t = .next s' := by
  rcases hostStep_cases s t with h | ⟨v, h, -⟩ | ⟨-, -, -, -, h | h | h | ⟨x, h⟩ | ⟨x, o, -, h⟩⟩
  · exact ⟨_, h⟩
  · exact ⟨_, h⟩
  · exact ⟨_, h.2⟩
  · exact ⟨_, h.2⟩
  · exact ⟨_, h.2⟩
  · exact ⟨_, h.2⟩
  · exact ⟨_, h.2⟩

/-- A transaction while busy changes BERR at most (R206, R244). -/
theorem hostStep_busy {s s' : State} {t : Transaction} (hb : s.dev.busy = true) (h : hostStep s t = .next s') :
    s' = s.busError ∨ ∃ v, s' = s.okay s.dev v := by
  rcases hostStep_cases s t with h' | ⟨v, h', -⟩ | ⟨-, -, -, hb', -⟩
  · rw [h'] at h; cases h; exact .inl rfl
  · rw [h'] at h; cases h; exact .inr ⟨v, rfl⟩
  · rw [hb] at hb'; cases hb'

/-- What a turn of the outside does: a transaction, with a poll perhaps back in the queue; or a reset. -/
theorem inputStep_cases (s : State) (i : Input) :
    (∃ t, i = .bus t ∧ inputStep s i = hostStep s t) ∨
    (i = .reset ∧ inputStep s i = .next s.resetDevice) ∨
    (∃ off mask val s', i = .poll off mask val ∧ hostStep s (rd off) = .next s' ∧
      ((s'.lastRdata &&& mask = val ∧ inputStep s i = .next s') ∨
       (s'.lastRdata &&& mask ≠ val ∧ inputStep s i = .next { s' with inputs := i :: s'.inputs }))) := by
  cases i with
  | bus t => exact .inl ⟨t, rfl, rfl⟩
  | reset => exact .inr (.inl ⟨rfl, rfl⟩)
  | poll off mask val =>
    obtain ⟨s', hs'⟩ := hostStep_next s (rd off)
    refine .inr (.inr ⟨off, mask, val, s', rfl, hs', ?_⟩)
    simp only [inputStep, hs']
    by_cases hv : s'.lastRdata &&& mask = val
    · exact .inl ⟨hv, by simp [hv]⟩
    · exact .inr ⟨hv, by simp [hv]⟩

theorem inputStep_next (s : State) (i : Input) : ∃ s', inputStep s i = .next s' := by
  rcases inputStep_cases s i with ⟨t, -, h⟩ | ⟨-, h⟩ | ⟨_, _, _, s', -, -, ⟨-, h⟩ | ⟨-, h⟩⟩
  · exact h ▸ hostStep_next s t
  · exact ⟨_, h⟩
  · exact ⟨_, h⟩
  · exact ⟨_, h⟩

/-! ## A step -/

/-- Everything a step can do: nothing (idle); a turn of the outside, with the input taken from the queue
and perhaps a turn used up; or the engine step, perhaps with a turn used up. -/
theorem step_cases (s : State) :
    (s.dev.busy = false ∧ s.inputs = [] ∧ step s = .next s) ∨
    (∃ i rest ts, s.inputs = i :: rest ∧ (s.dev.busy = false ∧ ts = s.turns ∨ s.dev.busy = true ∧ s.turns = .host :: ts) ∧
      step s = inputStep { s with inputs := rest, turns := ts } i) ∨
    (∃ ts, s.dev.busy = true ∧ (ts = s.turns ∨ s.turns = .engine :: ts) ∧
      (s.inputs = [] ∨ s.turns = [] ∨ s.turns = .engine :: ts) ∧ step s = engineStep { s with turns := ts }) := by
  obtain ⟨cfg, d, inputs, turns, last⟩ := s
  cases hb : d.busy with
  | false =>
    cases inputs with
    | nil => exact .inl ⟨rfl, rfl, by simp [step, move, hb]⟩
    | cons i rest => exact .inr (.inl ⟨i, rest, turns, rfl, .inl ⟨rfl, rfl⟩, by simp [step, move, hb]⟩)
  | true =>
    cases inputs with
    | nil => exact .inr (.inr ⟨turns, rfl, .inl rfl, .inl rfl, by simp [step, move, hb]⟩)
    | cons i rest =>
      cases turns with
      | nil => exact .inr (.inr ⟨[], rfl, .inl rfl, .inr (.inl rfl), by simp [step, move, hb]⟩)
      | cons a ts =>
        cases a with
        | host => exact .inr (.inl ⟨i, rest, ts, rfl, .inr ⟨rfl, rfl⟩, by simp [step, move, hb]⟩)
        | engine => exact .inr (.inr ⟨ts, rfl, .inr rfl, .inr (.inr rfl), by simp [step, move, hb]⟩)

/-! ## What a step can do to the device -/

/-- A 4-byte write to a register is the `WR` of its offset. -/
theorem wr_of_register {t : Transaction} {r : Reg} (hk : t.kind = .write) (hs : t.size = 4#3)
    (hd : decodeAddr t.addr = .reg r) : t = wr (BitVec.ofNat 16 (regOffset r)) t.wdata := by
  have h := decodeAddr_at t.addr
  rw [hd] at h
  have h : t.addr.toNat = regOffset r := h
  obtain ⟨k, ad, sz, wd⟩ := t
  simp only at hk hs h
  subst hk hs
  rw [← h]
  simp [wr]

/-- Every engine step that goes on ends with `Complete` (R119). -/
theorem engineStep_done {s t : State} (h : engineStep s = .next t) :
    t.dev.busy = false ∧ t.dev.done = true ∧ t.dev.pend = .none ∧ t.dev.ie = s.dev.ie ∧ t.dev.berr = s.dev.berr ∧
    t.inputs = s.inputs ∧ t.turns = s.turns ∧ t.cfg = s.cfg ∧ t.lastResp = s.lastResp := by
  rcases engineStep_cases h with ⟨n, hp, rfl⟩ | ⟨n, hp, rfl⟩
  · rcases engineDerive_cases s.cfg s.dev n with ⟨r, -, e⟩ | ⟨-, -, e⟩ | ⟨-, -, -, e⟩ | ⟨-, -, -, -, e⟩ <;> simp [e]
  · rcases engineVerify_cases s.cfg s.dev n with ⟨r, -, e⟩ | ⟨-, r, -, e⟩ <;> simp [e]

/-- With a command pending the engine step goes on. -/
theorem engineStep_next {s : State} (h : s.dev.pend ≠ .none) : ∃ t, engineStep s = .next t := by
  cases hp : s.dev.pend with
  | none => exact absurd hp h
  | derive n => exact ⟨_, engineStep_derive hp⟩
  | verify n => exact ⟨_, engineStep_verify hp⟩

/-- A CMD write of a word that decodes to a command is `exec` of it, busy or not. -/
theorem hostStep_cmd_decoded (s : State) {w : Word} {i : Instr} (hd : decode w = .ok i) :
    hostStep s (wr 0x0010#16 w) = exec i s := by
  cases hb : s.dev.busy with
  | true => rw [hostStep_write_busy hb rfl, exec_busy hb]
  | false =>
    rw [hostStep_cmd hb, exec_idle hb]
    simp only [Hkx.issued, hd]
    cases i <;> rfl

/-- What a transaction can do to the device, the transaction named where it is an accepted write. -/
theorem hostStep_dev_cases {s t : State} {x : Transaction} (h : hostStep s x = .next t) :
    t.cfg = s.cfg ∧ t.inputs = s.inputs ∧ t.turns = s.turns ∧
    (t.dev = s.dev ∨
     (t.dev = { s.dev with berr := true } ∧ t.lastResp = some ⟨.error, 0#32⟩) ∨
     (s.dev.busy = false ∧
       ((∃ w, x = wr 0x0010#16 w ∧ t.dev = s.dev.issued w) ∨
        (∃ w, x = wr 0x0014#16 w ∧ t.dev = s.dev.writeStatus w) ∨
        (∃ w, x = wr 0x0018#16 w ∧ t.dev = s.dev.writeIrqEn w) ∨
        (∃ y w, x = wr (BitVec.ofNat 16 (regOffset (.len y))) w ∧ t.dev = s.dev.writeLen y w) ∨
        (∃ y o w, t.dev = s.dev.writeWin y o w)))) := by
  rcases hostStep_cases s x with e | ⟨v, e, -⟩ | ⟨hs, -, hk, hb, c⟩
  · rw [e] at h; cases h; exact ⟨rfl, rfl, rfl, .inr (.inl ⟨rfl, rfl⟩)⟩
  · rw [e] at h; cases h; exact ⟨rfl, rfl, rfl, .inl rfl⟩
  · rcases c with ⟨hd, e⟩ | ⟨hd, e⟩ | ⟨hd, e⟩ | ⟨y, hd, e⟩ | ⟨y, o, -, -, e⟩ <;> rw [e] at h <;> cases h <;>
      refine ⟨rfl, rfl, rfl, .inr (.inr ⟨hb, ?_⟩)⟩
    · exact .inl ⟨_, wr_of_register hk hs hd, rfl⟩
    · exact .inr (.inl ⟨_, wr_of_register hk hs hd, rfl⟩)
    · exact .inr (.inr (.inl ⟨_, wr_of_register hk hs hd, rfl⟩))
    · exact .inr (.inr (.inr (.inl ⟨y, _, wr_of_register hk hs hd, rfl⟩)))
    · exact .inr (.inr (.inr (.inr ⟨y, o, _, rfl⟩)))

/-- Everything a step can do to the device: nothing, a bus error, a reset, the engine step, or what one
accepted write does. -/
theorem step_dev_cases {s t : State} (h : step s = .next t) :
    t.cfg = s.cfg ∧
    (t.dev = s.dev ∨
     (t.dev = { s.dev with berr := true } ∧ t.lastResp = some ⟨.error, 0#32⟩) ∨
     (∃ rest, s.inputs = .reset :: rest ∧ t.dev = Hkx.reset) ∨
     (s.dev.busy = true ∧ engineStep { s with turns := t.turns } = .next t) ∨
     (s.dev.busy = false ∧ ∃ rest x, s.inputs = .bus x :: rest ∧
       ((∃ w, x = wr 0x0010#16 w ∧ t.dev = s.dev.issued w) ∨
        (∃ w, x = wr 0x0014#16 w ∧ t.dev = s.dev.writeStatus w) ∨
        (∃ w, x = wr 0x0018#16 w ∧ t.dev = s.dev.writeIrqEn w) ∨
        (∃ y w, x = wr (BitVec.ofNat 16 (regOffset (.len y))) w ∧ t.dev = s.dev.writeLen y w) ∨
        (∃ y o w, t.dev = s.dev.writeWin y o w)))) := by
  rcases step_cases s with ⟨-, -, e⟩ | ⟨i, rest, ts, hi, -, e⟩ | ⟨ts, hb, -, -, e⟩ <;> rw [e] at h
  · cases h; exact ⟨rfl, .inl rfl⟩
  · rcases inputStep_cases { s with inputs := rest, turns := ts } i with ⟨x, hx, e'⟩ | ⟨hx, e'⟩ |
      ⟨off, mask, val, s', hx, hs, e'⟩
    · subst hx
      rw [e'] at h
      obtain ⟨hc, -, -, c⟩ := hostStep_dev_cases h
      refine ⟨hc, ?_⟩
      rcases c with c | c | ⟨hb, c⟩
      · exact .inl c
      · exact .inr (.inl c)
      · exact .inr (.inr (.inr (.inr ⟨hb, rest, x, hi, c⟩)))
    · subst hx
      rw [e'] at h; cases h
      exact ⟨rfl, .inr (.inr (.inl ⟨rest, hi, rfl⟩))⟩
    · have hd : t.cfg = s'.cfg ∧ t.dev = s'.dev ∧ t.lastResp = s'.lastResp := by
        rcases e' with ⟨-, e'⟩ | ⟨-, e'⟩ <;> rw [e'] at h <;> cases h <;> exact ⟨rfl, rfl, rfl⟩
      obtain ⟨hc, hd, hl⟩ := hd
      rw [hc, hd, hl]
      rcases hostStep_cases { s with inputs := rest, turns := ts } (rd off) with e | ⟨v, e, -⟩ | ⟨-, -, hk, -⟩
      · rw [e] at hs; cases hs; exact ⟨rfl, .inr (.inl ⟨rfl, rfl⟩)⟩
      · rw [e] at hs; cases hs; exact ⟨rfl, .inl rfl⟩
      · cases hk
  · obtain ⟨-, -, -, -, -, hi, ht, hc, -⟩ := engineStep_done h
    refine ⟨hc, .inr (.inr (.inr (.inl ⟨hb, ?_⟩)))⟩
    rw [ht]; exact h
end Sys2Proof.Machine
end

