-- ==== Sys2Proof/Laws/PerInstr.lean ====
section
/-! SUPPORT. The family OwnRow: the word of a command is selected by the row of R96 that bears its mnemonic,
and by no other row. -/

namespace Sys2Proof.Laws.OwnRow

/-- A command's word is selected by its own row alone. -/
def Statement (i : Instr) : Prop :=
  i.wf = true ∧ ∀ r ∈ opcodeRows, r.selects (encode i) = true ↔ r.mnemonic = i.mnemonic

theorem nop : Statement .nop := by unfold Statement; decide

theorem deriveDef : Statement .deriveDef := by unfold Statement; decide

theorem derive (arg : Byte) : Statement (.derive arg) := by
  unfold Statement
  revert arg
  decide +kernel

theorem verify (arg : Byte) : Statement (.verify arg) := by
  unfold Statement
  revert arg
  decide +kernel

end Sys2Proof.Laws.OwnRow
end

