-- ==== Sys2Proof/Tests/Slice0.lean ====
section
/-! SUPPORT. The model's own tests, from spec/95_test_vectors.md and the words of spec/30_encoding.md, and for
every statement with hypotheses a witness that something meets them. -/

open Sys2Proof Sys2Proof.Machine

namespace Sys2Proof.Tests

/-! ## Helpers -/

/-- What holds of the next state, where there is one. -/
def after (o : Host.Outcome State Fault Refusal) (p : State → Bool) : Bool :=
  match o with
  | .next s => p s
  | _ => false

/-- The device with the G-ops of 95_test_vectors.md section 4: input `00`, salt `0^32`, info empty. -/
def gDev : Hkx := { Hkx.reset with lenA := ⟨1#16, true⟩, lenB := ⟨32#16, true⟩, lenC := ⟨0#16, true⟩ }

/-- `"what do ya want for nothing?"`, the data of the J-ops. -/
def jData : Bytes :=
  [0x77#8, 0x68#8, 0x61#8, 0x74#8, 0x20#8, 0x64#8, 0x6f#8, 0x20#8, 0x79#8, 0x61#8, 0x20#8, 0x77#8, 0x61#8, 0x6e#8] ++
  [0x74#8, 0x20#8, 0x66#8, 0x6f#8, 0x72#8, 0x20#8, 0x6e#8, 0x6f#8, 0x74#8, 0x68#8, 0x69#8, 0x6e#8, 0x67#8, 0x3f#8]

/-- `"Jefe"`, the key of the J-ops. -/
def jKey : Bytes := [0x4a#8, 0x65#8, 0x66#8, 0x65#8]

/-- The first 16 bytes of the tag of the J-ops (V-V3). -/
def jTag16 : Bytes :=
  [0x5b#8, 0xdc#8, 0xc1#8, 0x46#8, 0xbf#8, 0x60#8, 0x75#8, 0x4e#8, 0x6a#8, 0x04#8, 0x24#8, 0x26#8, 0x08#8, 0x95#8,
   0x75#8, 0xc7#8]

/-- The last 16 bytes of that tag (H4). -/
def jTagRest : Bytes :=
  [0x5a#8, 0x00#8, 0x3f#8, 0x08#8, 0x9d#8, 0x27#8, 0x39#8, 0x83#8, 0x9d#8, 0xec#8, 0x58#8, 0xb9#8, 0x64#8, 0xec#8,
   0x38#8, 0x43#8]

/-- The device with the J-ops and a mac. -/
def jDev (mac : Bytes) : Hkx :=
  { Hkx.reset with
    lenA := ⟨28#16, true⟩, lenB := ⟨4#16, true⟩, lenC := ⟨BitVec.ofNat 16 mac.length, true⟩,
    mem := ((Memory.writeBytes [] 0x8000 jData).writeBytes 0x1000 jKey).writeBytes 0x2000 mac }

/-- A machine with a device. -/
def withDev (d : Hkx) : State := { State.reset with dev := d }

/-- A device on which a DERIVE is pending. -/
def derivePending (d : Hkx) (n : Byte) : State := withDev (d.startDerive n)

/-- A device on which a VERIFY is pending. -/
def verifyPending (d : Hkx) (n : Byte) : State := withDev (d.startVerify n)

/-- The machine with the G-ops, idle. -/
def gIdle : State := withDev gDev

/-- A memory with one byte of OUT set, as an earlier DERIVE could leave it. -/
def staleOut : Memory := [(0x0100, 0xca#8)]

/-! ## Well-formedness (R6 to R8): one ill-formed configuration for each check -/

theorem test_wf_standard : Config.standard.wf := by decide
theorem test_wf_maxA_refuses_not_multiple : ¬ (Config.mk 1022 128 128 .rfc2104).wf := by decide
theorem test_wf_maxA_refuses_below : ¬ (Config.mk 0 128 128 .rfc2104).wf := by decide
theorem test_wf_maxA_refuses_above : ¬ (Config.mk 32772 128 128 .rfc2104).wf := by decide
theorem test_wf_maxB_refuses_not_multiple : ¬ (Config.mk 1024 130 128 .rfc2104).wf := by decide
theorem test_wf_maxB_refuses_below : ¬ (Config.mk 1024 28 128 .rfc2104).wf := by decide
theorem test_wf_maxB_refuses_above : ¬ (Config.mk 1024 4100 128 .rfc2104).wf := by decide
theorem test_wf_maxC_refuses_not_multiple : ¬ (Config.mk 1024 128 129 .rfc2104).wf := by decide
theorem test_wf_maxC_refuses_below : ¬ (Config.mk 1024 128 28 .rfc2104).wf := by decide
theorem test_wf_maxC_refuses_above : ¬ (Config.mk 1024 128 4100 .rfc2104).wf := by decide
theorem test_wf_bounds_admitted : (Config.mk 4 32 4096 .rfc2104).wf ∧ (Config.mk 32768 4096 32 .rfc2104).wf := by
  decide
/-- The canonical form refuses a listed 0x00 and offsets out of order. -/
theorem test_wf_memory_refuses : ¬ Memory.wf [(3, 0#8)] ∧ ¬ Memory.wf [(3, 1#8), (3, 2#8)] ∧ ¬ Memory.wf [(4, 1#8), (3, 2#8)] := by
  decide

/-! ## Decode: words written out from R92, R96 and R97 -/

/-- RSV 000000000000000, G 0, ARG 00000000, OP 00000000. -/
theorem test_decode_nop : decode 0b00000000000000000000000000000000#32 = .ok .nop := by decide
/-- RSV 000000000000000, G 0, ARG 00000000, OP 00000001. -/
theorem test_decode_deriveDef : decode 0b00000000000000000000000000000001#32 = .ok .deriveDef := by decide
/-- RSV 000000000000000, G 1, ARG 10000011, OP 00000001. -/
theorem test_decode_derive : decode 0b00000000000000011000001100000001#32 = .ok (.derive 0b10000011#8) := by decide
/-- RSV 000000000000000, G 1, ARG 00010000, OP 00000010. -/
theorem test_decode_verify : decode 0b00000000000000010001000000000010#32 = .ok (.verify 0b00010000#8) := by decide
theorem test_decode_bounds :
    decode 0x00010001#32 = .ok (.derive 0#8) ∧ decode 0x0001FF01#32 = .ok (.derive 255#8) ∧
    decode 0x00010002#32 = .ok (.verify 0#8) ∧ decode 0x0001FF02#32 = .ok (.verify 255#8) := by decide
theorem test_decode_refuses_by_name :
    decode 0x80010101#32 = .error .reservedBits ∧ decode 0x00030101#32 = .error .reservedBits ∧
    decode 0xFFFFFFFF#32 = .error .reservedBits ∧ decode 0x00000003#32 = .error .reservedOp ∧
    decode 0x000000FF#32 = .error .reservedOp ∧ decode 0x00010000#32 = .error .nopWithOperand ∧
    decode 0x00000100#32 = .error .nopWithOperand ∧ decode 0x00000201#32 = .error .deriveArgNotGiven ∧
    decode 0x00000102#32 = .error .verifyNotGiven := by decide
/-- R99: `DERIVE #3` and `VERIFY #16`. -/
theorem test_encode : encode (.derive 3#8) = 0x00010301#32 ∧ encode (.verify 16#8) = 0x00011002#32 := by decide
theorem test_decodeTableWord :
    decodeTableWord 32 0x00000000 = some .nop ∧ decodeTableWord 32 0x00000001 = some .deriveDef ∧
    decodeTableWord 32 0x00010201 = some (.derive 2#8) ∧ decodeTableWord 32 0x00012002 = some (.verify 32#8) ∧
    decodeTableWord 32 0x00000002 = none := by decide
/-- The first step after reset runs the word placed. -/
theorem test_withFetchWord :
    after (step (State.reset.withFetchWord 32 0x00000000)) (fun t => t.dev.statusWord == 0x00000002#32) = true ∧
    after (step (State.reset.withFetchWord 32 0x00000001)) (fun t => t.dev.pend == .derive 3#8) = true ∧
    after (step (State.reset.withFetchWord 32 0x00010201)) (fun t => t.dev.pend == .derive 2#8) = true ∧
    after (step (State.reset.withFetchWord 32 0x00012002)) (fun t => t.dev.pend == .verify 32#8) = true := by decide

/-! ## HMAC (95_test_vectors.md section 2) -/

/-- H2: SHA-256 of `"abc"`. -/
theorem test_sha256_abc : (sha256 [0x61#8, 0x62#8, 0x63#8]).toList =
    [0xba#8, 0x78#8, 0x16#8, 0xbf#8, 0x8f#8, 0x01#8, 0xcf#8, 0xea#8, 0x41#8, 0x41#8, 0x40#8, 0xde#8, 0x5d#8, 0xae#8,
     0x22#8, 0x23#8] ++
    [0xb0#8, 0x03#8, 0x61#8, 0xa3#8, 0x96#8, 0x17#8, 0x7a#8, 0x9c#8, 0xb4#8, 0x10#8, 0xff#8, 0x61#8, 0xf2#8, 0x00#8,
     0x15#8, 0xad#8] := by decide +kernel

/-- H4: HMAC of the J-ops. -/
theorem test_hmac_jefe : (hmacSha256 jKey jData).toList = jTag16 ++ jTagRest := by decide +kernel

/-- H7, first four bytes: a key longer than one block is hashed first. -/
theorem test_hmac_long_key : (hmacSha256 (List.replicate 100 0xaa#8)
    ([0x54#8, 0x65#8, 0x73#8, 0x74#8, 0x20#8, 0x55#8, 0x73#8, 0x69#8, 0x6e#8, 0x67#8, 0x20#8, 0x4c#8, 0x61#8, 0x72#8] ++
     [0x67#8, 0x65#8, 0x72#8, 0x20#8, 0x54#8, 0x68#8, 0x61#8, 0x6e#8, 0x20#8, 0x42#8, 0x6c#8, 0x6f#8, 0x63#8, 0x6b#8] ++
     [0x2d#8, 0x53#8, 0x69#8, 0x7a#8, 0x65#8, 0x20#8, 0x4b#8, 0x65#8, 0x79#8, 0x20#8, 0x2d#8, 0x20#8, 0x48#8, 0x61#8] ++
     [0x73#8, 0x68#8, 0x20#8, 0x4b#8, 0x65#8, 0x79#8, 0x20#8, 0x46#8, 0x69#8, 0x72#8, 0x73#8, 0x74#8])).toList.take 4 =
    [0xae#8, 0x77#8, 0x84#8, 0xe2#8] := by decide +kernel

/-! ## The commands -/

/-- R111's example: from STATUS = 0x00000402, `WR CMD, 0` gives 0x00000002. -/
theorem test_nop_clears_error :
    after (exec .nop (withDev { gDev with done := true, err := 4#4 })) (fun t => t.dev.statusWord == 0x00000002#32) = true := by
  decide
/-- NOP leaves OUT and OUT_COUNT (R111). -/
theorem test_nop_keeps_out :
    after (exec .nop (withDev { gDev with mem := staleOut, outCount := 1#2 }))
      (fun t => t.dev.statusWord == 0x00010002#32 && t.dev.mem == staleOut) = true := by decide
/-- R112's example: `WR CMD, 0x00000002` gives STATUS = 0x00000602. -/
theorem test_illegal : after (hostStep State.reset (wr 0x0010#16 0x00000002#32))
    (fun t => t.dev.statusWord == 0x00000602#32 && t.lastResp == some ⟨.okay, 0#32⟩) = true := by decide
/-- V-G1, issue: BUSY, and OUT zeroed (R113). -/
theorem test_deriveDef_issue :
    after (exec .deriveDef (withDev { gDev with done := true, mem := staleOut, outCount := 1#2 }))
      (fun t => t.dev.statusWord == 0x00000001#32 && t.dev.mem == [] && t.dev.pend == .derive 3#8) = true := by decide
/-- V-G1, engine step: three chunks; the last word of c2, at 0x015C, reads 0x73C06937 (P1). -/
theorem test_deriveDef_engine :
    after (engineStep (derivePending gDev 3#8))
      (fun t => t.dev.statusWord == 0x00030002#32 && t.dev.mem.readWord 0x0100 == 0x52090DCA#32 &&
        t.dev.mem.readWord 0x015C == 0x73C06937#32) = true := by decide +kernel
/-- V-D2: two chunks, the third stays zero. -/
theorem test_derive_two_chunks :
    after (engineStep (derivePending gDev 2#8))
      (fun t => t.dev.statusWord == 0x00020002#32 && t.dev.mem.readWord 0x013C == 0xD82B53F8#32 &&
        t.dev.mem.readWord 0x0140 == 0#32) = true := by decide +kernel
/-- V-D11: a 31-byte salt and chunks 0 give LENGTH, not RANGE. -/
theorem test_derive_length_before_range :
    after (engineStep (derivePending { gDev with lenB := ⟨31#16, true⟩ } 0#8))
      (fun t => t.dev.statusWord == 0x00002202#32) = true := by decide
/-- V-V3: the truncated tag. -/
theorem test_verify_truncated :
    after (engineStep (verifyPending (jDev jTag16) 16#8)) (fun t => t.dev.statusWord == 0x00000002#32) = true := by
  decide +kernel
/-- P2's flip: mac byte 0 is 5a, AUTH. -/
theorem test_verify_flipped_bit :
    after (engineStep (verifyPending (jDev (0x5a#8 :: jTag16.tail)) 16#8)) (fun t => t.dev.statusWord == 0x00003402#32) = true := by
  decide +kernel

/-! ## The host port (95_test_vectors.md section 6, program P4) -/

/-- V-B12: bits 30:16 of x_LEN are not stored. -/
theorem test_len_write :
    after (hostStep State.reset (wr 0x0020#16 0xFFFFFFFF#32)) (fun t => t.dev.lenWord .a == 0x8000FFFF#32) = true := by
  decide
/-- V-B13: both write-1-to-clear bits at once; ERR, ERR_ARG and OUT_COUNT stay. -/
theorem test_status_write :
    after (hostStep (withDev { gDev with done := true, berr := true, err := 2#4, errArg := 3#3, outCount := 1#2 })
      (wr 0x0014#16 0xFFFFFFFF#32)) (fun t => t.dev.statusWord == 0x00013200#32) = true := by decide
/-- P1: the word at 0x1000 is stored low byte first. -/
theorem test_window_write :
    after (hostStep State.reset (wr 0x1000#16 0x6566654A#32))
      (fun t => t.dev.mem == [(0x1000, 0x4a#8), (0x1001, 0x65#8), (0x1002, 0x66#8), (0x1003, 0x65#8)]) = true := by decide
/-- P4: past MAX_B. -/
theorem test_window_past_capacity :
    after (hostStep State.reset (rd 0x1080#16)) (fun t => t.lastResp == some ⟨.error, 0#32⟩ && t.dev.berr) = true := by decide
/-- P4: a write while busy. -/
theorem test_write_while_busy :
    after (hostStep (derivePending gDev 3#8) (wr 0x0018#16 1#32)) (fun t => t.dev.statusWord == 0x00000005#32 && !t.dev.ie) = true := by
  decide
/-- V-B17: `irq` at once after a NOP with IE = 1. -/
theorem test_irq : after (exec .nop (withDev { gDev with ie := true })) (fun t => t.dev.irq) = true := by decide
/-- R101: LOAD of five bytes, the pad bytes 0x00. -/
theorem test_load : progLoad .b [1#8, 2#8, 3#8, 4#8, 5#8] =
    [.bus (wr 0x1000#16 0x04030201#32), .bus (wr 0x1004#16 0x00000005#32), .bus (wr 0x0024#16 0x80000005#32)] := by decide
/-- R101: LOAD of nothing writes the length only; ABSENT; WAIT; ACK. -/
theorem test_pseudo : progLoad .c [] = [.bus (wr 0x0028#16 0x80000000#32)] ∧ progAbsent .a = [.bus (wr 0x0020#16 0#32)] ∧
    progWait = [.poll 0x0014#16 3#32 2#32] ∧ progAck = [.bus (wr 0x0014#16 2#32)] := by decide
/-- R99, R100: commands and transactions as text; a chunk count over 255 is refused. -/
theorem test_text_lines :
    lineText "CMD DERIVE #0x03 ; three chunks" = some [.bus (wr 0x0010#16 0x00010301#32)] ∧
    lineText "CMD VERIFY #16" = some [.bus (wr 0x0010#16 0x00011002#32)] ∧
    lineText "RD 0x0100 -> 0x52090DCA" = some [.bus (rd 0x0100#16)] ∧
    lineText "WR A_LEN, 0x80000401" = some [.bus (wr 0x0020#16 0x80000401#32)] ∧ lineText "CMD DERIVE #256" = none := by decide
/-- R101: the pseudo-instructions as text. -/
theorem test_text_program :
    programText ["LOAD B, 4a656665", "LOADZ A, 2", "ABSENT C", "", "POLL STATUS, 0x3, 0x2", "WAIT", "ACK"] =
      some (progLoad .b jKey ++ progLoadz .a 2 ++ progAbsent .c ++ progWait ++ progWait ++ progAck) := by decide
/-- LOAD past offset 0xFFFF is refused as text (log entry 18); up to it, it is read. -/
theorem test_load_fits : loadFits .a 32768 = true ∧ loadFits .a 32769 = false ∧ lineText "LOADZ A, 32769" = none := by
  decide
/-- V-B20: both schedules.  The host first: a bus error; the engine first: the write takes effect. -/
theorem test_schedule :
    after (step { derivePending gDev 1#8 with inputs := [.bus (wr 0x0018#16 1#32)], turns := [.host] })
      (fun t => t.dev.statusWord == 0x00000005#32 && !t.dev.ie) = true ∧
    after (step { derivePending gDev 0#8 with inputs := [.bus (wr 0x0018#16 1#32)], turns := [.engine] })
      (fun t => t.dev.statusWord == 0x00004302#32 && t.inputs == [.bus (wr 0x0018#16 1#32)]) = true := by decide

/-! ## Witnesses: the hypotheses of each statement, met together -/

/-- The machine with the J-ops, the 16-byte mac and VERIFY #16 pending. -/
def jPending : State := verifyPending (jDev jTag16) 16#8

theorem gDev_usable : gDev.operandsUsable Config.standard := fun x => by cases x <;> decide
theorem derivePending_inv (n : Byte) : (derivePending gDev n).Inv := by
  refine ⟨(show Config.standard.wf by decide), ⟨fun _ => rfl, fun _ => nofun⟩, by simp [derivePending, withDev], fun _ => ⟨rfl, rfl⟩,
    (show (errNone, argNone) ∈ listedResults by decide), fun _ _ => rfl, fun j _ _ => rfl,
    (show Memory.wf [] by decide), nofun⟩
theorem verifyPending_inv (n : Byte) : (verifyPending gDev n).Inv := by
  refine ⟨(show Config.standard.wf by decide), ⟨fun _ => rfl, fun _ => nofun⟩, by simp [verifyPending, withDev], fun _ => ⟨rfl, rfl⟩,
    (show (errNone, argNone) ∈ listedResults by decide), nofun, fun j _ _ => rfl,
    (show Memory.wf [] by decide), nofun⟩

theorem witness_DecodeInvertsEncode :
    (Instr.derive 255#8).wf = true ∧ (Instr.verify 0#8).wf = true ∧ decode 0x0001FF01#32 = .ok (.derive 255#8) := by decide
theorem witness_IllegalWordsAreTheListedOnes :
    State.reset.dev.busy = false ∧ ∃ why, decode 0x00010003#32 = .error why := ⟨rfl, .reservedOp, by decide⟩
/-- The first and the last aligned offset of each reserved range, and of each range beside it (R62). -/
theorem witness_AddressMapIsTheListedOne :
    ([0x001C#16, 0x002C#16, 0x00FC#16, 0x0160#16, 0x0FFC#16, 0x3000#16, 0x7FFC#16].all fun a =>
      decide (a.toNat % 4 = 0) && decodeAddr a == .reserved) = true ∧
    decodeAddr 0x0018#16 = .reg .irqEn ∧ decodeAddr 0x0020#16 = .reg (.len .a) ∧ decodeAddr 0x0028#16 = .reg (.len .c) ∧
    decodeAddr 0x0100#16 = .out 0 ∧ decodeAddr 0x015C#16 = .out 92 ∧ decodeAddr 0x1000#16 = .win .b 0 ∧
    decodeAddr 0x1FFC#16 = .win .b 0xFFC ∧ decodeAddr 0x2000#16 = .win .c 0 ∧ decodeAddr 0x2FFC#16 = .win .c 0xFFC ∧
    decodeAddr 0x8000#16 = .win .a 0 ∧ decodeAddr 0xFFFC#16 = .win .a 0x7FFC := by decide
theorem witness_BusErrors_size : busErrorCause State.reset ⟨.read, 0x0014#16, 1#3, 0#32⟩ := .inl (by decide)
theorem witness_BusErrors_misaligned : busErrorCause State.reset (rd 0x0002#16) := .inr (.inl (by decide))
theorem witness_BusErrors_reserved : busErrorCause State.reset (rd 0x001C#16) := .inr (.inr (.inl (by decide)))
theorem witness_BusErrors_capacity : busErrorCause State.reset (rd 0x1080#16) :=
  .inr (.inr (.inr (.inl ⟨.b, 0x80, by decide, by decide⟩)))
theorem witness_BusErrors_readOnly :
    busErrorCause State.reset (wr 0x0000#16 0x12345678#32) ∧ busErrorCause State.reset (wr 0x0004#16 0#32) ∧
    busErrorCause State.reset (wr 0x0100#16 0#32) :=
  ⟨.inr (.inr (.inr (.inr (.inl ⟨rfl, .inl (by decide)⟩)))),
   .inr (.inr (.inr (.inr (.inl ⟨rfl, .inr (.inl ⟨.a, by decide⟩)⟩)))),
   .inr (.inr (.inr (.inr (.inl ⟨rfl, .inr (.inr ⟨0, by decide⟩)⟩))))⟩
theorem witness_BusErrors_busy : busErrorCause (derivePending gDev 3#8) (wr 0x0018#16 1#32) :=
  .inr (.inr (.inr (.inr (.inr ⟨rfl, rfl⟩))))
theorem witness_BusErrors_none : ¬ busErrorCause State.reset (rd 0x107C#16) := by
  rintro (h | h | h | ⟨x, o, h, h'⟩ | ⟨h, -⟩ | ⟨h, -⟩)
  · exact absurd h (by decide)
  · exact absurd h (by decide)
  · exact absurd h (by decide)
  · have hw : decodeAddr (rd 0x107C#16).addr = .win .b 0x7C := by decide
    rw [hw] at h
    cases h
    exact absurd h' (by decide)
  · cases h
  · cases h
theorem witness_ConstantAndCommandRegisters :
    State.reset.cfg.wf ∧ State.reset.dev.busy = false ∧ decode 0x00000001#32 = .ok .deriveDef ∧
    decode 0x00000002#32 = .error .verifyNotGiven ∧
    (derivePending gDev 3#8).cfg.wf ∧ (derivePending gDev 3#8).dev.busy = true := by
  refine ⟨by decide, rfl, by decide, by decide, by decide, rfl⟩
/-- For the statements that suppose BUSY = 0, or BUSY = 1, of one state. -/
theorem witness_idle_and_busy : gIdle.dev.busy = false ∧ (derivePending gDev 3#8).dev.busy = true := ⟨rfl, rfl⟩
theorem witness_LengthRegistersReadAndWrite :
    State.reset.dev.busy = false ∧ (0x80000401#32 : Word).getLsbD 31 = true ∧
    ((0x80000401#32 : Word).extractLsb' 0 16).toNat > State.reset.cfg.cap .a := by decide
/-- The last word of window A. -/
theorem witness_WindowWriteStoresTheWord :
    gIdle.cfg.wf ∧ gIdle.dev.mem.wf ∧ gIdle.dev.busy = false ∧ 1020 % 4 = 0 ∧ 1020 < gIdle.cfg.cap .a := by decide
theorem witness_WindowAndOutReadsAreLittleEndian :
    gIdle.cfg.wf ∧ 124 % 4 = 0 ∧ 124 < gIdle.cfg.cap .c ∧ 92 % 4 = 0 ∧ 92 < 96 := by decide
theorem witness_WindowReadAnswersTheLatestWrite :
    gIdle.cfg.wf ∧ gIdle.dev.mem.wf ∧ gIdle.dev.busy = false ∧ 4 % 4 = 0 ∧ 4 < gIdle.cfg.cap .b ∧ 0 % 4 = 0 ∧
    0 < gIdle.cfg.cap .b ∧ (Slot.b ≠ Slot.b ∨ 4 ≠ 0) := by decide
theorem witness_TransactionsAreIdempotentButForCommands :
    (∃ t, hostStep gIdle (rd 0x0014#16) = .next t) ∧ gIdle.dev.mem.wf ∧
    ¬ ((wr 0x8000#16 5#32).kind = .write ∧ decodeAddr (wr 0x8000#16 5#32).addr = .reg .cmd) ∧
    (∃ t, hostStep gIdle (wr 0x8000#16 5#32) = .next t) ∧
    gIdle.dev.busy = false ∧ decode 0x00000001#32 = .ok .deriveDef ∧ Instr.deriveDef ≠ .nop :=
  ⟨hostStep_next _ _, by decide, by decide, hostStep_next _ _, rfl, by decide, by decide⟩
theorem witness_EachPieceOfStateHasItsWriters :
    ¬ ((wr 0x0020#16 5#32).kind = .write ∧ decodeAddr (wr 0x0020#16 5#32).addr = .reg .cmd) ∧
    (∃ t, hostStep gIdle (wr 0x0020#16 5#32) = .next t) ∧
    gIdle.dev.busy = false ∧ (∃ t, hostStep gIdle (wr 0x0010#16 0x00012002#32) = .next t) ∧
    (∀ n, decode 0x00012002#32 ≠ .ok (.derive n)) ∧ decode 0x00012002#32 ≠ .ok .deriveDef ∧
    (∃ t, engineStep (verifyPending gDev 32#8) = .next t) ∧ ∀ n, (verifyPending gDev 32#8).dev.pend ≠ .derive n := by
  refine ⟨by decide, hostStep_next _ _, rfl, hostStep_next _ _, fun n => ?_, by decide, engineStep_next (by decide), nofun⟩
  rw [show decode 0x00012002#32 = .ok (.verify 32#8) by decide]
  nofun
theorem witness_NopCompletesAtOnce : gIdle.dev.busy = false ∧ ∃ t, exec .nop gIdle = .next t := ⟨rfl, _, rfl⟩
theorem witness_IllegalCompletesAtOnce : gIdle.dev.busy = false ∧ decode 0x00000002#32 = .error .verifyNotGiven := by decide
theorem witness_CommandReportsTheFirstError :
    gIdle.dev.busy = false ∧ decode 0x00000002#32 = .error .verifyNotGiven ∧
    (∃ t, hostStep gIdle (wr 0x0010#16 0x00000002#32) = .next t) ∧
    (derivePending gDev 4#8).dev.pend = .derive 4#8 ∧ (verifyPending gDev 33#8).dev.pend = .verify 33#8 :=
  ⟨rfl, by decide, hostStep_next _ _, rfl, rfl⟩
theorem witness_FailedCommandChangesNothingElse :
    ∃ t, engineStep (derivePending gDev 0#8) = .next t ∧ t.dev.err ≠ 0#4 := ⟨_, engineStep_derive rfl, by decide⟩
/-- The least and the greatest chunk count. -/
theorem witness_DeriveStoresItsChunks : ∀ n : Byte, n = 1#8 ∨ n = 3#8 →
    (derivePending gDev n).dev.mem.wf ∧ (derivePending gDev n).dev.pend = .derive n ∧
    (derivePending gDev n).dev.operandsUsable (derivePending gDev n).cfg ∧ (derivePending gDev n).dev.len .b = 32 ∧
    1 ≤ n.toNat ∧ n.toNat ≤ 3 := by
  intro n hn
  refine ⟨(show Memory.wf [] by decide), rfl, fun x => gDev_usable x, rfl, ?_⟩
  rcases hn with rfl | rfl <;> decide
/-- A chunk count that succeeds and one that fails. -/
theorem witness_DeriveOutputIsWholeOrZero :
    (∀ n, (derivePending gDev n).Inv ∧ (derivePending gDev n).dev.pend = .derive n) ∧
    after (engineStep (derivePending gDev 1#8)) (fun t => t.dev.err == 0#4) = true ∧
    after (engineStep (derivePending gDev 4#8)) (fun t => t.dev.err != 0#4) = true :=
  ⟨fun n => ⟨derivePending_inv n, rfl⟩, by decide +kernel, by decide⟩
/-- Both forms: DERIVE #n at its least and greatest chunk count, and DERIVE.DEF. -/
theorem witness_DeriveCompletesWithItsChunks :
    gIdle.dev.mem.wf ∧ gIdle.dev.busy = false ∧ gIdle.dev.operandsUsable gIdle.cfg ∧ gIdle.dev.len .b = 32 ∧
    (∀ n : Byte, n = 1#8 ∨ n = 3#8 → 1 ≤ n.toNat ∧ n.toNat ≤ 3 ∧
      (Instr.derive n = .derive n ∨ Instr.derive n = .deriveDef ∧ n = 3#8)) ∧
    (Instr.deriveDef = .derive 3#8 ∨ Instr.deriveDef = .deriveDef ∧ 3#8 = 3#8) :=
  ⟨by decide, rfl, gDev_usable, rfl, fun n hn => by rcases hn with rfl | rfl <;> decide, .inr ⟨rfl, rfl⟩⟩
theorem jPending_usable : jPending.dev.operandsUsable jPending.cfg := fun x => by cases x <;> decide +kernel
theorem witness_VerifyAcceptsTheTag :
    jPending.dev.pend = .verify 16#8 ∧ jPending.dev.operandsUsable jPending.cfg ∧ 1 ≤ (16#8 : Byte).toNat ∧ (16#8 : Byte).toNat ≤ 32 ∧
    jPending.dev.bytes .c = (hmac jPending.cfg.hmac (jPending.dev.bytes .b) (jPending.dev.bytes .a)).toList.take 16 :=
  ⟨rfl, jPending_usable, by decide, by decide, by decide +kernel⟩
/-- P2: bit 0 of byte 0. -/
theorem witness_VerifyRefusesTheFlippedBit :
    (verifyPending (jDev (0x5a#8 :: jTag16.tail)) 16#8).dev.operandsUsable Config.standard ∧
    jTag16 = (hmac .rfc2104 ((verifyPending (jDev (0x5a#8 :: jTag16.tail)) 16#8).dev.bytes .b)
      ((verifyPending (jDev (0x5a#8 :: jTag16.tail)) 16#8).dev.bytes .a)).toList.take 16 ∧
    (verifyPending (jDev (0x5a#8 :: jTag16.tail)) 16#8).dev.bytes .c = jTag16.set 0 (0x5b#8 ^^^ BitVec.twoPow 8 0) :=
  ⟨fun x => by cases x <;> decide +kernel, by decide +kernel, by decide +kernel⟩
/-- An empty mac (G-ops), and a mac that is not empty. -/
theorem witness_VerifyOfLengthZero :
    (verifyPending gDev 0#8).dev.pend = .verify 0#8 ∧ (verifyPending gDev 0#8).dev.operandsUsable Config.standard ∧
    (verifyPending gDev 0#8).dev.len .c = 0 ∧
    (verifyPending { gDev with lenC := ⟨1#16, true⟩ } 0#8).dev.pend = .verify 0#8 ∧
    (verifyPending { gDev with lenC := ⟨1#16, true⟩ } 0#8).dev.operandsUsable Config.standard ∧
    (verifyPending { gDev with lenC := ⟨1#16, true⟩ } 0#8).dev.len .c ≠ 0 :=
  ⟨rfl, fun x => by cases x <;> decide, rfl, rfl, fun x => by cases x <;> decide, by decide⟩
/-- The least length over 32, with LEN(C) equal to it. -/
theorem witness_VerifyOfLengthOverThirtyTwo :
    (verifyPending { gDev with lenC := ⟨33#16, true⟩ } 33#8).dev.pend = .verify 33#8 ∧
    (verifyPending { gDev with lenC := ⟨33#16, true⟩ } 33#8).dev.operandsUsable Config.standard ∧ 32 < (33#8 : Byte).toNat ∧
    (verifyPending { gDev with lenC := ⟨33#16, true⟩ } 33#8).dev.len .c = (33#8 : Byte).toNat :=
  ⟨rfl, fun x => by cases x <;> decide, by decide, rfl⟩
theorem witness_ComparatorFoldsEveryPair : ([1#8, 2#8] : Bytes).length = ([1#8, 3#8] : Bytes).length ∧ 7 < 8 := by decide
/-- For both statements about the chunks: 1 ≤ m ≤ n ≤ 3 at the bounds. -/
theorem witness_chunk_counts : 1 ≤ 1 ∧ 1 ≤ 3 ∧ 3 ≤ 3 := by decide
/-- Two states that differ in a byte past LEN(C) only. -/
theorem witness_ResultDependsOnTheOperandsAlone :
    let s := derivePending gDev 0#8
    let s' := derivePending { gDev with mem := [(0x2000, 0xdd#8)] } 0#8
    s.Inv ∧ s'.Inv ∧ s ≠ s' ∧ s.cfg = s'.cfg ∧ s.dev.pend = s'.dev.pend ∧ s.dev.slot = s'.dev.slot ∧
    (∀ x j, j < s.dev.len x → j < s.cfg.cap x → s.dev.mem.read (winBase x + j) = s'.dev.mem.read (winBase x + j)) ∧
    (∃ t, engineStep s = .next t) ∧ ∃ t', engineStep s' = .next t' := by
  refine ⟨derivePending_inv _, ?_, by decide, rfl, rfl, ?_, ?_, engineStep_next (by decide), engineStep_next (by decide)⟩
  · refine ⟨by decide, ⟨fun _ => rfl, fun _ => nofun⟩, by simp [derivePending, withDev], fun _ => ⟨rfl, rfl⟩,
      (show (errNone, argNone) ∈ listedResults by decide), fun _ _ => rfl, ?_,
      (show Memory.wf [(0x2000, 0xdd#8)] by decide), ?_⟩
    · intro j _ hj
      show Memory.read [(0x2000, 0xdd#8)] (outBase + j) = 0#8
      have : ¬ (0x2000 = outBase + j) := by simp only [outBase, outSize] at *; omega
      simp [Memory.read, this]
    · intro x hx
      have hx : x ∈ [((0x2000 : Nat), 0xdd#8)] := hx
      rw [List.mem_singleton.mp hx]
      exact .inr (.inr (.inr (by decide)))
  · funext x; cases x <;> rfl
  · intro x j hj _
    show Memory.read [] _ = Memory.read [(0x2000, 0xdd#8)] _
    have hne : ¬ (0x2000 = winBase x + j) := by
      have hj : j < gDev.len x := by simpa [derivePending, withDev] using hj
      cases x
      · simp only [winBase]; omega
      · have : j < 32 := hj
        simp only [winBase]; omega
      · exact absurd hj (by simp [Hkx.len, Hkx.slot, gDev])
    simp [Memory.read, hne]
/-- A CMD write with BUSY = 0, and with BUSY = 1 on the host's turn; and an ILLEGAL word. -/
theorem witness_StepRunsTheDecodedCommand :
    let s := { gIdle with inputs := [.bus (wr 0x0010#16 0x00000001#32)] }
    let b := { derivePending gDev 3#8 with inputs := [.bus (wr 0x0010#16 0x00000000#32)], turns := [.host] }
    s.dev.busy = false ∧ decode 0x00000001#32 = .ok .deriveDef ∧ b.dev.busy = true ∧ b.turns = .host :: [] ∧
    decode 0x00000000#32 = .ok .nop ∧ decode 0x00000002#32 = .error .verifyNotGiven :=
  ⟨rfl, by decide, rfl, rfl, by decide, by decide⟩
theorem witness_StepFollowsTheSchedule :
    let i := [Input.bus (rd 0x0014#16)]
    (gIdle.dev.busy = false ∧ gIdle.inputs = []) ∧
    (let s := { gIdle with inputs := i }; s.dev.busy = false ∧ s.inputs = .bus (rd 0x0014#16) :: []) ∧
    ((derivePending gDev 1#8).dev.busy = true ∧ (derivePending gDev 1#8).inputs = []) ∧
    (let s := { derivePending gDev 1#8 with inputs := i, turns := [.engine] };
      s.dev.busy = true ∧ s.inputs ≠ [] ∧ s.turns = .engine :: []) ∧
    (let s := { derivePending gDev 1#8 with inputs := i, turns := [.host] };
      s.dev.busy = true ∧ s.inputs = .bus (rd 0x0014#16) :: [] ∧ s.turns = .host :: []) :=
  ⟨⟨rfl, rfl⟩, ⟨rfl, rfl⟩, ⟨rfl, rfl⟩, ⟨rfl, nofun, rfl⟩, ⟨rfl, rfl, rfl⟩⟩
/-- WAIT with BUSY = 0, and with BUSY = 1 on the host's turn, where the poll stays. -/
theorem witness_PollReadsUntilTheValue :
    (let s := { gIdle with inputs := progWait }
     s.inputs = .poll 0x0014#16 3#32 2#32 :: [] ∧ s.dev.busy = false ∧ s.turns = s.turns) ∧
    (let s := { derivePending gDev 1#8 with inputs := progWait, turns := [.host] }
     s.inputs = .poll 0x0014#16 3#32 2#32 :: [] ∧ s.dev.busy = true ∧ s.turns = .host :: [] ∧
     after (step s) (fun t => t.inputs == progWait && t.lastResp == some ⟨.okay, 1#32⟩) = true) := by decide
/-- Five bytes, and a window filled to its capacity. -/
theorem witness_LoadFillsTheSlot :
    let s := { gIdle with inputs := progLoad .b [1#8, 2#8, 3#8, 4#8, 5#8] }
    s.cfg.wf ∧ s.dev.mem.wf ∧ s.dev.busy = false ∧ ([1#8, 2#8, 3#8, 4#8, 5#8] : Bytes).length ≤ s.cfg.cap .b ∧
    s.inputs = progLoad .b [1#8, 2#8, 3#8, 4#8, 5#8] ++ [] ∧ (List.replicate 128 (1#8 : Byte)).length ≤ s.cfg.cap .b :=
  ⟨by decide, by decide, rfl, by decide, by decide, by simp [gIdle, withDev, State.reset, Config.standard, Config.cap]⟩
theorem witness_PlacedWordRunsNext : decodeTableWord 32 0x00010201 = some (.derive 2#8) := by decide
theorem witness_ResetAbandonsThePendingCommand :
    let s := { gIdle with inputs := [.reset] }
    let b := { derivePending gDev 3#8 with inputs := [.reset], turns := [.host] }
    s.inputs = .reset :: [] ∧ s.dev.busy = false ∧ b.inputs = .reset :: [] ∧ b.dev.busy = true ∧ b.turns = .host :: [] :=
  ⟨rfl, rfl, rfl, rfl, rfl⟩
/-- After reset, an IRQ_EN write and a NOP; and the LEN write that makes slot A present. -/
theorem witness_CommandsAfterResetFailWithType :
    (let s := withDev { Hkx.reset with ie := true, done := true }
     s.dev ≠ State.reset.dev ∧ s.dev.busy = false ∧ s.dev.present .a = false) ∧
    Instr.deriveDef ≠ .nop ∧ Instr.derive 1#8 ≠ .nop ∧ Instr.verify 0#8 ≠ .nop ∧
    State.reset.dev.present .a = false ∧
    after (hostStep State.reset (wr 0x0020#16 0x80000001#32)) (fun t => t.dev.present .a) = true ∧
    after (engineStep (derivePending gDev 0#8)) (fun _ => true) = true := by decide
/-- For the statements over every step: a state of the invariant whose step is the engine's, and one whose step is a
transaction. -/
theorem witness_EveryStep :
    (derivePending gDev 1#8).Inv ∧ (∃ t, step (derivePending gDev 1#8) = .next t) ∧
    State.reset.Inv ∧ ∃ t, step (State.reset.withFetchWord 32 0) = .next t :=
  ⟨derivePending_inv _, ⟨_, rfl⟩, by
    refine ⟨by decide, by decide, by decide, by decide, by decide, fun _ _ => rfl, fun _ _ _ => rfl, by decide, by decide⟩,
    ⟨_, rfl⟩⟩
/-- A schedule with a host turn before the engine's and one after it. -/
theorem witness_PendingCommandCompletes :
    let s := { derivePending gDev 1#8 with inputs := [.bus (rd 0x0014#16)], turns := [.host, .engine, .host] }
    s.Inv ∧ s.dev.busy = true ∧ Input.reset ∉ s.inputs ∧ (s.turns.takeWhile (· = Agent.host)).length = 1 :=
  ⟨derivePending_inv 1#8, rfl, by decide, by decide⟩
/-- BUSY rises, and falls (R27). -/
theorem witness_BusyRisesByIssueAndFallsByCompletion :
    (gIdle.dev.busy = false ∧ after (step (gIdle.withFetchWord 32 1)) (fun t => t.dev.busy) = true) ∧
    ((derivePending gDev 0#8).dev.busy = true ∧ after (step (derivePending gDev 0#8)) (fun t => !t.dev.busy) = true) ∧
    (derivePending gDev 0#8).Inv ∧ (wr 0x8000#16 0#32).kind = .write :=
  ⟨⟨rfl, by decide⟩, ⟨rfl, by decide⟩, derivePending_inv _, rfl⟩
/-- DONE rises, and falls (R28). -/
theorem witness_DoneRisesByCompletionOnly :
    (gIdle.dev.done = false ∧ after (step (gIdle.withFetchWord 32 0)) (fun t => t.dev.done) = true) ∧
    (let s := withDev { gDev with done := true };
      s.dev.done = true ∧ after (step (s.withFetchWord 32 1)) (fun t => !t.dev.done) = true) ∧
    (∃ t, engineStep (derivePending gDev 0#8) = .next t) ∧ (2#32 : Word).getLsbD 1 = true :=
  ⟨⟨rfl, by decide⟩, ⟨rfl, by decide⟩, engineStep_next (by decide), by decide⟩
/-- BERR rises, and falls (R29). -/
theorem witness_BusErrorFlagIsSticky :
    (let s := { gIdle with inputs := [.bus (rd 0x001C#16)] };
      s.dev.berr = false ∧ after (step s) (fun t => t.dev.berr && t.lastResp == some ⟨.error, 0#32⟩) = true) ∧
    (let s := { withDev { gDev with berr := true } with inputs := [.bus (wr 0x0014#16 4#32)] };
      s.dev.berr = true ∧ s.dev.busy = false ∧ after (step s) (fun t => !t.dev.berr) = true) ∧
    (4#32 : Word).getLsbD 2 = true := by decide
theorem witness_ErrorIsHeldUntilTheNextCommand :
    let s := derivePending gDev 0#8
    after (step s) (fun t => t.dev.err != s.dev.err) = true := by decide
theorem witness_OnlyDeriveWritesOut :
    let s := withDev { gDev with mem := staleOut, outCount := 1#2 }
    inOut 0x0100 ∧ after (step (s.withFetchWord 32 1))
      (fun t => t.dev.mem.read 0x0100 != s.dev.mem.read 0x0100 && t.dev.outCount != s.dev.outCount) = true := by decide
theorem witness_OperandsHoldUntilCompletion :
    let s := { derivePending gDev 0#8 with inputs := [.bus (wr 0x8000#16 1#32)], turns := [.host] }
    s.dev.busy = true ∧ after (step s) (fun t => t.dev.busy) = true := by decide
theorem witness_NoResultIsReadTooEarly :
    (derivePending gDev 3#8).Inv ∧ (derivePending gDev 3#8).dev.busy = true ∧ (∃ n, (derivePending gDev 3#8).dev.pend = .derive n) ∧
    (verifyPending gDev 3#8).Inv ∧ (verifyPending gDev 3#8).dev.busy = true ∧ 92 % 4 = 0 ∧ 92 < 96 :=
  ⟨derivePending_inv _, rfl, ⟨3#8, rfl⟩, verifyPending_inv _, rfl, by decide, by decide⟩
theorem witness_InterruptFollowsDoneAndEnable :
    (∃ t, engineStep (derivePending gDev 0#8) = .next t) ∧ gIdle.dev.busy = false ∧ decode 0#32 = .ok .nop ∧
    decode 2#32 = .error .verifyNotGiven ∧ decode 1#32 = .ok .deriveDef ∧ (2#32 : Word).getLsbD 1 = true ∧
    busErrorCause gIdle (rd 0x001C#16) ∧ ∃ t, hostStep gIdle (rd 0x001C#16) = .next t :=
  ⟨engineStep_next (by decide), rfl, by decide, by decide, by decide, by decide, .inr (.inr (.inl (by decide))),
   hostStep_next _ _⟩

end Sys2Proof.Tests
end

section
/-! # The comparator (R14, R156)

The accumulator is described bit by bit, over the zipped byte pairs and from any start, so that the induction
goes through; the rule's index form of it, and `CTEQ`'s, follow. -/

namespace Sys2Proof.Proofs
open Sys2Proof.Machine

/-- The accumulator keeps each bit it starts with and takes in that bit of every pair's XOR. -/
theorem getLsbD_cmpAcc (acc : Byte) (x y : Bytes) (b : Nat) :
    (cmpAcc acc x y).getLsbD b = (acc.getLsbD b || (x.zip y).any fun p => (p.1 ^^^ p.2).getLsbD b) := by
  induction x generalizing acc y with
  | nil => simp [cmpAcc]
  | cons a x ih =>
    cases y with
    | nil => simp [cmpAcc]
    | cons c y => rw [cmpAcc, ih, BitVec.getLsbD_or, List.zip_cons_cons, List.any_cons, Bool.or_assoc]

/-- R156: from 0x00 on, a bit of the accumulator is set exactly when some byte pair differs in it. -/
theorem getLsbD_cmpAcc_zero_iff {x y : Bytes} (h : x.length = y.length) (b : Nat) :
    (cmpAcc 0#8 x y).getLsbD b = true ↔
      ∃ (i : Nat) (hi : i < x.length), (x[i] ^^^ y[i]'(h ▸ hi)).getLsbD b = true := by
  rw [getLsbD_cmpAcc, BitVec.getLsbD_zero, Bool.false_or, List.any_eq_true]
  have hlen : (x.zip y).length = x.length := by rw [List.length_zip, h, Nat.min_self]
  constructor
  · rintro ⟨p, hp, hb⟩
    obtain ⟨i, hi, rfl⟩ := List.mem_iff_getElem.mp hp
    exact ⟨i, hlen ▸ hi, by simpa only [List.getElem_zip] using hb⟩
  · rintro ⟨i, hi, hb⟩
    have hmem := List.getElem_mem (hlen.symm ▸ hi : i < (x.zip y).length)
    exact ⟨_, hmem, by simpa only [List.getElem_zip] using hb⟩

/-- R14: `CTEQ` is true exactly when the XOR of every byte pair is 0. -/
theorem ctEq_iff_forall_xor {x y : Bytes} (h : x.length = y.length) :
    ctEq x y = true ↔ ∀ (i : Nat) (hi : i < x.length), x[i] ^^^ y[i]'(h ▸ hi) = 0#8 := by
  simp only [ctEq_iff h, BitVec.xor_eq_zero_iff]
  constructor
  · rintro rfl i hi
    rfl
  · exact fun heq => List.ext_getElem h fun i hi _ => heq i hi

/-- Settles O29, by the accumulator's bits (induction over the byte pairs) and `CTEQ` as equality. -/
theorem comparatorFoldsEveryPair : Obligations.ComparatorFoldsEveryPair :=
  fun _ _ h b _ => ⟨getLsbD_cmpAcc_zero_iff h b, ctEq_iff_forall_xor h⟩

end Sys2Proof.Proofs
end

section
/-! # Every step keeps the invariant

R43 lists what no transaction but a CMD write can change.  That frame (`KeepsCommandState`) carries the
invariant over every such transaction; the issue of a command, `Complete` and reset have a lemma each. -/

namespace Sys2Proof.Proofs
open Sys2Proof.Machine

/-! ## What the host's transactions keep (R43) -/

/-- What no transaction but a CMD write changes between the devices `d` and `e`: the state of the command, its
result and the bytes of OUT; and DONE does not rise. -/
structure KeepsCommandState (d e : Hkx) : Prop where
  busy : e.busy = d.busy
  pend : e.pend = d.pend
  err : e.err = d.err
  errArg : e.errArg = d.errArg
  outCount : e.outCount = d.outCount
  done : e.done = true → d.done = true
  out : ∀ a, inOut a → e.mem.read a = d.mem.read a

theorem KeepsCommandState.refl (d : Hkx) : KeepsCommandState d d :=
  ⟨rfl, rfl, rfl, rfl, rfl, id, fun _ _ => rfl⟩

theorem KeepsCommandState.setBerr (d : Hkx) (b : Bool) : KeepsCommandState d { d with berr := b } :=
  ⟨rfl, rfl, rfl, rfl, rfl, id, fun _ _ => rfl⟩

theorem KeepsCommandState.writeStatus (d : Hkx) (w : Word) : KeepsCommandState d (d.writeStatus w) :=
  ⟨rfl, rfl, rfl, rfl, rfl, fun h => (Bool.and_eq_true_iff.mp h).1, fun _ _ => rfl⟩

theorem KeepsCommandState.writeIrqEn (d : Hkx) (w : Word) : KeepsCommandState d (d.writeIrqEn w) :=
  ⟨rfl, rfl, rfl, rfl, rfl, id, fun _ _ => rfl⟩

theorem KeepsCommandState.writeLen (d : Hkx) (x : Slot) (w : Word) : KeepsCommandState d (d.writeLen x w) := by
  constructor <;> simp

/-- A window word is no part of OUT. -/
theorem KeepsCommandState.writeWin (d : Hkx) (x : Slot) (o : Nat) (w : Word) :
    KeepsCommandState d (d.writeWin x o w) where
  busy := rfl
  pend := rfl
  err := rfl
  errArg := rfl
  outCount := rfl
  done := id
  out a ha := by
    refine Memory.read_writeBytes_outside _ _ _ _ ?_
    have h := winBase_not_inOut x o
    simp only [inOut, outBase, outSize, le32Bytes_length] at *
    cases x <;> simp only [winBase] at * <;> omega

/-! ## The issue of a command (R110 to R113) -/

/-- Everything the issue of a word can do: complete at once, as NOP and an ILLEGAL word do; or start the DERIVE
or the VERIFY the word decodes to. -/
theorem issued_cases (d : Hkx) (w : Word) :
    ((decode w = .ok .nop ∨ ∃ why, decode w = .error why) ∧
      ∃ code, (code = errNone ∨ code = errIllegalCmd) ∧ d.issued w = d.finishAtIssue code) ∨
    (∃ n, (decode w = .ok .deriveDef ∨ decode w = .ok (.derive n)) ∧ d.issued w = d.startDerive n) ∨
    (∃ n, decode w = .ok (.verify n) ∧ d.issued w = d.startVerify n) := by
  simp only [Hkx.issued]
  cases hd : decode w with
  | error why => exact .inl ⟨.inr ⟨why, rfl⟩, _, .inr rfl, rfl⟩
  | ok i =>
    cases i with
    | nop => exact .inl ⟨.inl rfl, _, .inl rfl, rfl⟩
    | deriveDef => exact .inr (.inl ⟨_, .inl rfl, rfl⟩)
    | derive n => exact .inr (.inl ⟨n, .inr rfl, rfl⟩)
    | verify n => exact .inr (.inr ⟨n, rfl, rfl⟩)

/-! ## The invariant, one lemma for each change to the device -/

section
variable {cfg : Config} {d : Hkx}

theorem noError_mem_listedResults : (errNone, argNone) ∈ listedResults := by decide

theorem inv_reset (hc : cfg.wf) : Hkx.reset.Inv cfg where
  capacities := hc
  pending := by decide
  notBusyAndDone := by decide
  noErrorWhileBusy _ := ⟨rfl, rfl⟩
  listed := by decide
  noChunksPending _ _ := rfl
  outTail _ _ _ := rfl
  canonical := by decide
  onlyMapped := by simp [Hkx.reset]

/-- Only the memory's form and its offsets are left to show of a transaction that is no CMD write. -/
theorem inv_of_keeps {e : Hkx} (h : d.Inv cfg) (k : KeepsCommandState d e) (hwf : e.mem.wf)
    (hmapped : ∀ x ∈ e.mem, mapped cfg x.1) : e.Inv cfg where
  capacities := h.capacities
  pending := by rw [k.pend, k.busy]; exact h.pending
  notBusyAndDone := fun ⟨hb, hd⟩ => h.notBusyAndDone ⟨k.busy ▸ hb, k.done hd⟩
  noErrorWhileBusy := by rw [k.busy, k.err, k.errArg]; exact h.noErrorWhileBusy
  listed := by rw [k.err, k.errArg]; exact h.listed
  noChunksPending := by rw [k.pend, k.outCount]; exact h.noChunksPending
  outTail j hj hlt := by
    rw [k.out _ ⟨by omega, by omega⟩]
    exact h.outTail j (k.outCount ▸ hj) hlt
  canonical := hwf
  onlyMapped := hmapped

/-- The four bytes of an aligned window word below a capacity, a multiple of 4, are mapped (R63, R70). -/
theorem mapped_winWord (hc : cfg.wf) {x : Slot} {o a : Nat} (h4 : o % 4 = 0) (ho : o < cfg.cap x)
    (hl : winBase x + o ≤ a) (hr : a < winBase x + o + 4) : mapped cfg a := by
  have hm := Config.wf.cap_mod hc x
  have : inWin cfg x a := ⟨by omega, by omega⟩
  cases x with
  | a => exact .inr (.inl this)
  | b => exact .inr (.inr (.inl this))
  | c => exact .inr (.inr (.inr this))

theorem inv_writeWin (h : d.Inv cfg) {x : Slot} {o : Nat} (h4 : o % 4 = 0) (ho : o < cfg.cap x) (w : Word) :
    (d.writeWin x o w).Inv cfg := by
  refine inv_of_keeps h (.writeWin d x o w) (Memory.wf_writeWord h.canonical _ _) fun y hy => ?_
  rcases Memory.mem_writeBytes hy with ⟨hl, hr⟩ | hy
  · exact mapped_winWord h.capacities h4 ho hl hr
  · exact h.onlyMapped y hy

/-- R111, R112: a command that completes at issue, from an idle device. -/
theorem inv_finishAtIssue (h : d.Inv cfg) (hb : d.busy = false) {code : BitVec 4}
    (hcode : (code, argNone) ∈ listedResults) : (d.finishAtIssue code).Inv cfg :=
  { h with
    notBusyAndDone := by simp [hb]
    noErrorWhileBusy := by simp [hb]
    listed := hcode }

/-- R113, DERIVE: OUT is cleared, so its tail is zero from byte 0 on. -/
theorem inv_startDerive (h : d.Inv cfg) (n : Byte) : (d.startDerive n).Inv cfg where
  capacities := h.capacities
  pending := by simp
  notBusyAndDone := by simp
  noErrorWhileBusy _ := ⟨rfl, rfl⟩
  listed := noError_mem_listedResults
  noChunksPending _ _ := rfl
  outTail j _ hlt := Memory.read_clearOut_inside _ ⟨by omega, by omega⟩
  canonical := Memory.wf_clearOut h.canonical
  onlyMapped x hx := h.onlyMapped x (Memory.mem_clearOut.mp hx).1

/-- R113, VERIFY: OUT stays as it is. -/
theorem inv_startVerify (h : d.Inv cfg) (n : Byte) : (d.startVerify n).Inv cfg :=
  { h with
    pending := by simp
    notBusyAndDone := by simp
    noErrorWhileBusy := fun _ => ⟨rfl, rfl⟩
    listed := noError_mem_listedResults
    noChunksPending := by simp }

theorem inv_issued (h : d.Inv cfg) (hb : d.busy = false) (w : Word) : (d.issued w).Inv cfg := by
  rcases issued_cases d w with ⟨-, code, hcode, e⟩ | ⟨n, -, e⟩ | ⟨n, -, e⟩ <;> rw [e]
  · exact inv_finishAtIssue h hb (by rcases hcode with rfl | rfl <;> decide)
  · exact inv_startDerive h n
  · exact inv_startVerify h n

/-- R119: a command that ends with a pair of the table and leaves OUT as it is. -/
theorem inv_complete (h : d.Inv cfg) {code : BitVec 4} {arg : BitVec 3} (hl : (code, arg) ∈ listedResults) :
    (d.complete code arg).Inv cfg :=
  { h with
    pending := by simp
    notBusyAndDone := by simp
    noErrorWhileBusy := by simp
    listed := hl
    noChunksPending := by simp }

/-- R135: `n` chunks stored in an OUT that was all zero leave its tail zero past them. -/
theorem inv_storeChunks_complete (h : d.Inv cfg) {n : Byte} (hp : d.pend = .derive n) (hn : n.toNat ≤ 3)
    {cs : List Bytes32} (hcs : cs.length = n.toNat) :
    ((d.storeChunks cs n).complete errNone argNone).Inv cfg := by
  have hcount : (n.setWidth 2).toNat = n.toNat := by rw [BitVec.toNat_setWidth]; omega
  have hlen : (cs.flatMap Vector.toList).length = 32 * n.toNat := by rw [chunks_length, hcs]
  have hzero := h.noChunksPending n hp
  exact {
    capacities := h.capacities
    pending := by simp
    notBusyAndDone := by simp
    noErrorWhileBusy := by simp
    listed := noError_mem_listedResults
    noChunksPending := by simp
    outTail := fun j hj hlt => by
      simp only [Hkx.complete_outCount, Hkx.storeChunks_outCount, hcount] at hj
      simp only [Hkx.complete_mem, Hkx.storeChunks_mem]
      rw [Memory.read_writeBytes_outside _ _ _ _ (by omega)]
      exact h.outTail j (by simp [hzero]) hlt
    canonical := Memory.wf_writeBytes h.canonical _ _
    onlyMapped := fun x hx => by
      rcases Memory.mem_writeBytes hx with ⟨hl, hr⟩ | hx
      · exact .inl ⟨hl, by simp only [outSize]; omega⟩
      · exact h.onlyMapped x hx }

/-- Every answer of the guard is a pair of the table (R200). -/
theorem guard_mem_listedResults {r : BitVec 4 × BitVec 3} (hg : d.guard cfg = some r) : r ∈ listedResults := by
  obtain ⟨x, rfl | rfl⟩ := Hkx.guard_listed hg <;> cases x <;> decide

theorem inv_engineDerive (h : d.Inv cfg) {n : Byte} (hp : d.pend = .derive n) : (engineDerive cfg d n).Inv cfg := by
  rcases engineDerive_cases cfg d n with ⟨r, hg, e⟩ | ⟨-, -, e⟩ | ⟨-, -, -, e⟩ | ⟨-, -, h1, h3, e⟩ <;> rw [e]
  · exact inv_complete h (guard_mem_listedResults hg)
  · exact inv_complete h (by decide)
  · exact inv_complete h (by decide)
  · exact inv_storeChunks_complete h hp h3 (deriveFn_length _ _ _ _ h1 h3)

theorem inv_engineVerify (h : d.Inv cfg) (n : Byte) : (engineVerify cfg d n).Inv cfg := by
  rcases engineVerify_cases cfg d n with ⟨r, hg, e⟩ | ⟨-, r, hr, e⟩ <;> rw [e]
  · exact inv_complete h (guard_mem_listedResults hg)
  · have hsub : [(errNone, argNone), (errLength, argId .c), (errLength, argField), (errAuth, argId .c)] ⊆
        listedResults := by decide
    exact inv_complete h (hsub (hr ▸ verifyFn_listed _ _ _ _ _))

end

/-! ## The invariant, over a move of each agent -/

theorem engineStep_keeps_inv {s t : State} (hs : s.Inv) (h : engineStep s = .next t) : t.Inv := by
  rcases engineStep_cases h with ⟨n, hp, rfl⟩ | ⟨n, hp, rfl⟩
  · exact inv_engineDerive hs hp
  · exact inv_engineVerify hs n

/-- An aligned offset of a window region is at an aligned byte of the window. -/
theorem win_byte_aligned {a : Addr} {x : Slot} {o : Nat} (ha : aligned a = true) (hd : decodeAddr a = .win x o) :
    o % 4 = 0 := by
  have h4 := (aligned_iff a).mp ha
  have hn := (decodeAddr_win hd).1
  cases x <;> simp only [winBase] at hn <;> omega

theorem hostStep_keeps_inv {s t : State} {x : Transaction} (hs : s.Inv) (h : hostStep s x = .next t) : t.Inv := by
  rcases hostStep_cases s x with e | ⟨v, e, -⟩ | ⟨-, ha, -, hb, ⟨-, e⟩ | ⟨-, e⟩ | ⟨-, e⟩ | ⟨y, -, e⟩ | ⟨y, o, hd, ho, e⟩⟩ <;>
    obtain rfl := Host.Outcome.next.inj (e.symm.trans h)
  · exact inv_of_keeps hs (.setBerr _ _) hs.canonical hs.onlyMapped
  · exact hs
  · exact inv_issued hs hb _
  · exact inv_of_keeps hs (.writeStatus _ _) hs.canonical hs.onlyMapped
  · exact inv_of_keeps hs (.writeIrqEn _ _) hs.canonical hs.onlyMapped
  · exact inv_of_keeps hs (.writeLen _ _ _) (by simpa using hs.canonical) (by simpa using hs.onlyMapped)
  · exact inv_writeWin hs (win_byte_aligned ha hd) ho _

theorem inputStep_keeps_inv {s t : State} {i : Input} (hs : s.Inv) (h : inputStep s i = .next t) : t.Inv := by
  rcases inputStep_cases s i with ⟨x, -, e⟩ | ⟨-, e⟩ | ⟨_, _, _, u, -, hu, ⟨-, e⟩ | ⟨-, e⟩⟩ <;> rw [e] at h
  · exact hostStep_keeps_inv hs h
  · cases h; exact inv_reset hs.capacities
  · cases h; exact hostStep_keeps_inv hs hu
  · cases h; exact hostStep_keeps_inv (t := u) hs hu

/-- Settles O42, by the invariant's lemma for each thing a step can do. -/
theorem everyStepKeepsTheInvariant : Obligations.EveryStepKeepsTheInvariant := by
  intro s t hs h
  rcases step_cases s with ⟨-, -, e⟩ | ⟨i, rest, ts, -, -, e⟩ | ⟨ts, -, -, -, e⟩ <;> rw [e] at h
  · cases h; exact hs
  · exact inputStep_keeps_inv (s := { s with inputs := rest, turns := ts }) hs h
  · exact engineStep_keeps_inv (s := { s with turns := ts }) hs h

end Sys2Proof.Proofs
end

section
/-! # The address map and the control registers (R22 to R26, R33, R34, R62 to R65)

What an offset selects, both ways; then the word each register reads and what a write to it does, once for the
offsets of R22. -/

namespace Sys2Proof.Proofs
open Sys2Proof.Machine

/-! ## The address map -/

/-- What a region says of an offset is what selects it: the decoder's inversion lemma, both ways. -/
theorem decodeAddr_eq_iff_at {a : Addr} {r : Region} (hr : r ≠ .reserved) : decodeAddr a = r ↔ r.at a.toNat := by
  have ha : BitVec.ofNat 16 a.toNat = a := by simp
  constructor
  · rintro rfl
    exact decodeAddr_at a
  · intro h
    cases r with
    | reg r => rw [← ha, show a.toNat = regOffset r from h, decodeAddr_reg]
    | out o => rw [← ha, h.1, decodeAddr_outBase h.2]
    | win s o => rw [← ha, h.1, decodeAddr_winBase s h.2]
    | reserved => exact absurd rfl hr

/-- The encoder gives the one offset that selects a region. -/
theorem encodeRegion_of_at {r : Region} {n : Nat} (hr : r ≠ .reserved) (h : r.at n) :
    encodeRegion r = some (BitVec.ofNat 16 n) := by
  cases r with
  | reg r => rw [show n = regOffset r from h, encodeRegion]
  | out o => rw [h.1, encodeRegion]
  | win s o => rw [h.1, encodeRegion]
  | reserved => exact absurd rfl hr

theorem encodeRegion_decodeAddr {a : Addr} (h : decodeAddr a ≠ .reserved) : encodeRegion (decodeAddr a) = some a := by
  rw [encodeRegion_of_at h (decodeAddr_at a), BitVec.ofNat_toNat, BitVec.setWidth_eq]

/-- The registers' offsets are the aligned ones up to 0x0028, without 0x001C (R22). -/
theorem exists_regOffset_iff (n : Nat) : (∃ r, n = regOffset r) ↔ n % 4 = 0 ∧ n ≤ 0x0028 ∧ n ≠ 0x001C := by
  constructor
  · rintro ⟨r, rfl⟩
    cases r with
    | cap s => cases s <;> decide
    | len s => cases s <;> decide
    | _ => decide
  · rintro ⟨h4, hle, hne⟩
    obtain ⟨k, rfl⟩ : ∃ k, n = 4 * k := ⟨n / 4, by omega⟩
    have hk : k ≤ 10 := by omega
    interval_cases k
    · exact ⟨.id, rfl⟩
    · exact ⟨.cap .a, rfl⟩
    · exact ⟨.cap .b, rfl⟩
    · exact ⟨.cap .c, rfl⟩
    · exact ⟨.cmd, rfl⟩
    · exact ⟨.status, rfl⟩
    · exact ⟨.irqEn, rfl⟩
    · exact absurd rfl hne
    · exact ⟨.len .a, rfl⟩
    · exact ⟨.len .b, rfl⟩
    · exact ⟨.len .c, rfl⟩

/-- An offset is reserved exactly when it is in no range of R62 and no register's. -/
theorem decodeAddr_eq_reserved_iff (a : Addr) :
    decodeAddr a = .reserved ↔ ∀ r : Region, r ≠ .reserved → ¬ r.at a.toNat := by
  constructor
  · intro h r hr hat
    exact hr (((decodeAddr_eq_iff_at hr).mpr hat).symm.trans h)
  · intro h
    by_contra hne
    exact h _ hne (decodeAddr_at a)

theorem decodeAddr_aligned_reserved_iff {a : Addr} (h4 : a.toNat % 4 = 0) :
    decodeAddr a = .reserved ↔
      a.toNat = 0x001C ∨ (0x002C ≤ a.toNat ∧ a.toNat ≤ 0x00FF) ∨ (0x0160 ≤ a.toNat ∧ a.toNat ≤ 0x0FFF) ∨
      (0x3000 ≤ a.toNat ∧ a.toNat ≤ 0x7FFF) := by
  have hlt := a.isLt
  have hreg := exists_regOffset_iff a.toNat
  rw [decodeAddr_eq_reserved_iff]
  constructor
  · intro h
    have hr : ¬ ∃ r, a.toNat = regOffset r := fun ⟨r, hr⟩ => h (.reg r) nofun hr
    have ho := h (.out (a.toNat - outBase)) nofun
    have hw := fun s => h (.win s (a.toNat - winBase s)) nofun
    have ha := hw .a
    have hb := hw .b
    have hc := hw .c
    rw [hreg] at hr
    simp only [Region.at, outBase, outSize, winBase, winSize] at ho ha hb hc
    omega
  · intro h r hne hat
    cases r with
    | reg r =>
      have := hreg.mp ⟨r, hat⟩
      omega
    | out o =>
      simp only [Region.at, outBase, outSize] at hat
      omega
    | win s o => cases s <;> simp only [Region.at, winBase, winSize] at hat <;> omega
    | reserved => exact hne rfl

/-- Settles O5, by the decoder's inversion lemma read both ways. -/
theorem addressMapIsTheListedOne : Obligations.AddressMapIsTheListedOne := fun _ =>
  ⟨encodeRegion_decodeAddr, fun _ => decodeAddr_eq_iff_at nofun, fun _ => decodeAddr_eq_iff_at nofun,
    fun _ => decodeAddr_eq_iff_at nofun, fun _ => decodeAddr_eq_iff_at nofun, fun _ => decodeAddr_eq_iff_at nofun,
    decodeAddr_aligned_reserved_iff⟩

/-! ## A read of a register -/

/-- The word a register reads (R23 to R26, R33, R34). -/
def regWord (s : State) : Reg → Word
  | .id => idWord
  | .cap x => capWord s.cfg x
  | .cmd => 0#32
  | .status => s.dev.statusWord
  | .irqEn => s.dev.irqEnWord
  | .len x => s.dev.lenWord x

theorem hostStep_rd_reg (s : State) (r : Reg) :
    hostStep s (rd (BitVec.ofNat 16 (regOffset r))) = .next (s.okay s.dev (regWord s r)) := by
  have h := hostStep_rd s (aligned_reg r)
  rw [decodeAddr_reg] at h
  cases r <;> exact h

/-- The fields of CAP_x (R24): 16 bits hold every capacity of R6 to R8. -/
theorem capWord_fields {cfg : Config} (hc : cfg.wf) (x : Slot) :
    ((capWord cfg x).extractLsb' 0 16).toNat = cfg.cap x ∧ (capWord cfg x).extractLsb' 16 16 = 0#16 := by
  have hcap : cfg.cap x < 2 ^ 16 := by
    refine (Config.wf.cap_le hc x).trans_lt ?_
    cases x <;> decide
  have hnat : (capWord cfg x).toNat = cfg.cap x := by
    simp only [capWord, BitVec.toNat_setWidth, BitVec.toNat_ofNat]
    omega
  refine ⟨?_, BitVec.eq_of_toNat_eq ?_⟩ <;>
    rw [BitVec.extractLsb'_toNat, hnat, Nat.shiftRight_eq_div_pow]
  · omega
  · simp only [BitVec.toNat_ofNat]; omega

/-- The fields of IRQ_EN (R33). -/
theorem irqEnWord_fields (d : Hkx) : d.irqEnWord.getLsbD 0 = d.ie ∧ d.irqEnWord.extractLsb' 1 31 = 0#31 := by
  simp only [Hkx.irqEnWord]
  cases d.ie <;> decide

/-- The fields of x_LEN (R34). -/
theorem lenWord_fields (d : Hkx) (x : Slot) :
    (d.lenWord x).extractLsb' 0 16 = (d.slot x).len ∧ (d.lenWord x).extractLsb' 16 15 = 0#15 ∧
    (d.lenWord x).getLsbD 31 = (d.slot x).present := by
  simp only [Hkx.lenWord, Hkx.present]
  refine ⟨?_, ?_, ?_⟩
  · ext i hi
    simp [show i < 31 by omega, show i < 32 by omega, BitVec.getLsbD_eq_getElem hi]
  · ext i hi
    simp [show ¬ 31 ≤ 16 + i by omega]
  · cases (d.slot x).present <;> simp

/-! ## A write to a register -/

theorem hostStep_wr_status {s : State} (hb : s.dev.busy = false) (w : Word) :
    hostStep s (wr 0x0014#16 w) = .next (s.okay (s.dev.writeStatus w) 0#32) := by
  have h := hostStep_wr hb (aligned_reg .status) w
  rwa [decodeAddr_reg] at h

theorem hostStep_wr_irqEn {s : State} (hb : s.dev.busy = false) (w : Word) :
    hostStep s (wr 0x0018#16 w) = .next (s.okay (s.dev.writeIrqEn w) 0#32) := by
  have h := hostStep_wr hb (aligned_reg .irqEn) w
  rwa [decodeAddr_reg] at h

theorem hostStep_wr_len {s : State} (hb : s.dev.busy = false) (x : Slot) (w : Word) :
    hostStep s (wr (BitVec.ofNat 16 (regOffset (.len x))) w) = .next (s.okay (s.dev.writeLen x w) 0#32) := by
  have h := hostStep_wr hb (aligned_reg (.len x)) w
  rwa [decodeAddr_reg] at h

/-- ID and CAP_x are read-only, busy or not (R23, R24, R206(e)). -/
theorem hostStep_wr_readOnly (s : State) {r : Reg} (hr : r = .id ∨ ∃ x, r = .cap x) (w : Word) :
    hostStep s (wr (BitVec.ofNat 16 (regOffset r)) w) = .next s.busError := by
  cases hb : s.dev.busy with
  | true => exact hostStep_write_busy hb rfl
  | false =>
    have h := hostStep_wr hb (aligned_reg r) w
    rw [decodeAddr_reg] at h
    rcases hr with rfl | ⟨x, rfl⟩ <;> exact h

/-- An ILLEGAL word written to CMD while idle (R25, R112). -/
theorem hostStep_cmd_illegal {s : State} (hb : s.dev.busy = false) {w : Word} {why : IllegalWord}
    (hd : decode w = .error why) : hostStep s (wr 0x0010#16 w) = execIllegal s := by
  rw [hostStep_cmd hb, execIllegal, State.issueCmd_idle hb, Hkx.issued, hd]

/-- Settles O7, by what each of the three registers reads and what a write to it does. -/
theorem constantAndCommandRegisters : Obligations.ConstantAndCommandRegisters := fun s hc =>
  ⟨hostStep_rd_reg s .id, fun x => ⟨_, hostStep_rd_reg s (.cap x), capWord_fields hc x⟩, hostStep_rd_reg s .cmd,
    hostStep_wr_readOnly s (.inl rfl), fun x => hostStep_wr_readOnly s (.inr ⟨x, rfl⟩),
    fun _ hb => ⟨fun _ hd => hostStep_cmd_decoded s hd, fun _ hd => hostStep_cmd_illegal hb hd⟩,
    fun _ hb => hostStep_write_busy hb rfl⟩

/-- A STATUS write clears DONE and BERR where its bits 1 and 2 are set (R26). -/
theorem writeStatus_eq (d : Hkx) (w : Word) :
    d.writeStatus w = { d with done := if w.getLsbD 1 then false else d.done,
                               berr := if w.getLsbD 2 then false else d.berr } := by
  rw [Hkx.writeStatus]
  cases w.getLsbD 1 <;> cases w.getLsbD 2 <;> simp

/-- Settles O8, by the fields of the STATUS word and the two bits a write clears. -/
theorem statusReadsAndClears : Obligations.StatusReadsAndClears :=
  ⟨fun s => ⟨_, hostStep_rd_reg s .status, s.dev.statusWord_fields⟩,
    fun s w hb => writeStatus_eq s.dev w ▸ hostStep_wr_status hb w,
    fun _ _ hb => hostStep_write_busy hb rfl, hostStep_rd_reg State.reset .status⟩

/-- Settles O9. -/
theorem interruptEnableReadsAndWrites : Obligations.InterruptEnableReadsAndWrites :=
  ⟨fun s => ⟨_, hostStep_rd_reg s .irqEn, irqEnWord_fields s.dev⟩, fun _ w hb => hostStep_wr_irqEn hb w,
    fun _ _ hb => hostStep_write_busy hb rfl, rfl⟩

/-- A present slot with LEN above its capacity fails its guard with CAPACITY (R117, R118). -/
theorem guard1_capacity {d : Hkx} {cfg : Config} {x : Slot} (hp : d.present x = true) (hl : d.len x > cfg.cap x) :
    d.guard1 cfg x = some (errCapacity, argId x) := by
  simp [Hkx.guard1, hp, hl]

/-- Settles O10, by the fields of the x_LEN word and the slot a write puts. -/
theorem lengthRegistersReadAndWrite : Obligations.LengthRegistersReadAndWrite := by
  refine ⟨fun s x => ⟨_, hostStep_rd_reg s (.len x), lenWord_fields s.dev x⟩, fun s x w hb => ?_,
    fun _ _ _ hb => hostStep_write_busy hb rfl, fun x => by cases x <;> rfl⟩
  refine ⟨_, hostStep_wr_len hb x w, Hkx.writeLen_slot_self _ _ _, fun _ => Hkx.writeLen_slot_ne _ _,
    by cases x <;> rfl, fun hp hl => guard1_capacity ?_ ?_⟩
  · simpa [Hkx.present] using hp
  · simpa [Hkx.len] using hl

end Sys2Proof.Proofs
end

section
/-! # Who writes each piece of state (R42, R43, R27 to R29, R32, R38)

The frame of a transaction, of an issue and of the engine step, each once; then what a step can do to the device
in these terms, from which the statements about every step follow. -/

namespace Sys2Proof.Proofs
open Sys2Proof.Machine

/-! ## A transaction that is no CMD write -/

/-- The offset 0x0010 selects CMD (R22). -/
theorem decodeAddr_cmd : decodeAddr 0x0010#16 = .reg .cmd := decodeAddr_reg .cmd

theorem hostStep_keepsCommandState {s t : State} {x : Transaction}
    (hx : ¬ (x.kind = .write ∧ decodeAddr x.addr = .reg .cmd)) (h : hostStep s x = .next t) :
    KeepsCommandState s.dev t.dev := by
  obtain ⟨-, -, -, e | ⟨e, -⟩ | ⟨-, ⟨w, rfl, -⟩ | ⟨w, -, e⟩ | ⟨w, -, e⟩ | ⟨y, w, -, e⟩ | ⟨y, o, w, e⟩⟩⟩ :=
    hostStep_dev_cases h
  · exact e ▸ .refl _
  · exact e ▸ .setBerr _ _
  · exact absurd ⟨rfl, decodeAddr_cmd⟩ hx
  · exact e ▸ .writeStatus _ _
  · exact e ▸ .writeIrqEn _ _
  · exact e ▸ .writeLen _ _ _
  · exact e ▸ .writeWin _ _ _ _

/-- A transaction ends in a bus error or in an OKAY response (R91, R206). -/
theorem hostStep_response (s : State) (x : Transaction) :
    hostStep s x = .next s.busError ∨ ∃ d v, hostStep s x = .next (s.okay d v) := by
  rcases hostStep_cases s x with e | ⟨v, e, -⟩ | ⟨-, -, -, -, ⟨-, e⟩ | ⟨-, e⟩ | ⟨-, e⟩ | ⟨y, -, e⟩ | ⟨y, o, -, -, e⟩⟩
  · exact .inl e
  all_goals exact .inr ⟨_, _, e⟩

/-! ## The issue of a command -/

section
variable (d : Hkx) (w : Word)

@[simp] theorem issued_berr : (d.issued w).berr = d.berr := by
  rcases issued_cases d w with ⟨-, code, -, e⟩ | ⟨n, -, e⟩ | ⟨n, -, e⟩ <;> rw [e] <;> rfl

@[simp] theorem issued_ie : (d.issued w).ie = d.ie := by
  rcases issued_cases d w with ⟨-, code, -, e⟩ | ⟨n, -, e⟩ | ⟨n, -, e⟩ <;> rw [e] <;> rfl

@[simp] theorem issued_slot : (d.issued w).slot = d.slot := by
  rcases issued_cases d w with ⟨-, code, -, e⟩ | ⟨n, -, e⟩ | ⟨n, -, e⟩ <;> rw [e] <;> simp

theorem read_issued_outside {a : Nat} (ha : ¬ inOut a) : (d.issued w).mem.read a = d.mem.read a := by
  rcases issued_cases d w with ⟨-, code, -, e⟩ | ⟨n, -, e⟩ | ⟨n, -, e⟩ <;> rw [e]
  · rfl
  · exact Memory.read_clearOut_outside _ ha
  · rfl

end

/-- Only DERIVE and DERIVE.DEF write OUT and OUT_COUNT at issue (R32, R38). -/
theorem issued_out_of_not_derive (d : Hkx) {w : Word} (hn : ∀ n, decode w ≠ .ok (.derive n))
    (hdef : decode w ≠ .ok .deriveDef) : (d.issued w).outCount = d.outCount ∧ (d.issued w).mem = d.mem := by
  rcases issued_cases d w with ⟨-, code, -, e⟩ | ⟨n, hd | hd, -⟩ | ⟨n, -, e⟩
  · rw [e]; exact ⟨rfl, rfl⟩
  · exact absurd hd hdef
  · exact absurd hd (hn n)
  · rw [e]; exact ⟨rfl, rfl⟩

/-- A word's issue either completes at once, DONE being set and BUSY as it was, or starts the command it decodes
to, which is then no NOP, BUSY being set and DONE cleared (R111 to R113). -/
theorem issued_completes_or_starts (d : Hkx) (w : Word) :
    ((decode w = .ok .nop ∨ ∃ why, decode w = .error why) ∧
      (d.issued w).done = true ∧ (d.issued w).busy = d.busy) ∨
    ((∃ i, decode w = .ok i ∧ i ≠ .nop) ∧ (d.issued w).done = false ∧ (d.issued w).busy = true) := by
  rcases issued_cases d w with ⟨hd, code, -, e⟩ | ⟨n, hd, e⟩ | ⟨n, hd, e⟩ <;> rw [e]
  · exact .inl ⟨hd, rfl, rfl⟩
  · refine .inr ⟨?_, rfl, rfl⟩
    rcases hd with hd | hd
    · exact ⟨_, hd, nofun⟩
    · exact ⟨_, hd, nofun⟩
  · exact .inr ⟨⟨_, hd, nofun⟩, rfl, rfl⟩

/-- DONE after an issue: set by NOP and by an ILLEGAL word, cleared by the others (R28). -/
theorem issued_done_iff (d : Hkx) (w : Word) : (d.issued w).done = true ↔ ∀ i, decode w = .ok i → i = .nop := by
  rcases issued_completes_or_starts d w with ⟨hd | ⟨why, hd⟩, hdone, -⟩ | ⟨⟨i, hd, hi⟩, hdone, -⟩
  · simp [hd, hdone]
  · simp [hd, hdone]
  · simp [hd, hdone, hi]

/-! ## The engine step -/

/-- What `Complete`, with or without chunks stored before it, leaves as it was (R119, R135, R201). -/
structure EngineFrame (d e : Hkx) : Prop where
  berr : e.berr = d.berr
  ie : e.ie = d.ie
  slot : e.slot = d.slot
  outside : ∀ a, ¬ inOut a → e.mem.read a = d.mem.read a

theorem EngineFrame.complete (d : Hkx) (code : BitVec 4) (arg : BitVec 3) : EngineFrame d (d.complete code arg) :=
  ⟨rfl, rfl, by simp, fun _ _ => rfl⟩

/-- At most three chunks lie within OUT. -/
theorem EngineFrame.storeChunks_complete (d : Hkx) {cs : List Bytes32} (hcs : cs.length ≤ 3) (n : Byte)
    (code : BitVec 4) (arg : BitVec 3) : EngineFrame d ((d.storeChunks cs n).complete code arg) where
  berr := rfl
  ie := rfl
  slot := by simp
  outside a ha := by
    refine Memory.read_writeBytes_outside _ _ _ _ ?_
    rw [chunks_length]
    simp only [inOut, outSize] at ha
    omega

theorem engineStep_frame {s t : State} (h : engineStep s = .next t) : EngineFrame s.dev t.dev := by
  rcases engineStep_cases h with ⟨n, -, rfl⟩ | ⟨n, -, rfl⟩
  · rcases engineDerive_cases s.cfg s.dev n with ⟨r, -, e⟩ | ⟨-, -, e⟩ | ⟨-, -, -, e⟩ | ⟨-, -, h1, h3, e⟩ <;>
      simp only [e]
    · exact .complete _ _ _
    · exact .complete _ _ _
    · exact .complete _ _ _
    · exact .storeChunks_complete _ ((deriveFn_length _ _ _ _ h1 h3).trans_le h3) _ _ _
  · rcases engineVerify_cases s.cfg s.dev n with ⟨r, -, e⟩ | ⟨-, r, -, e⟩ <;> simp only [e] <;> exact .complete _ _ _

/-- Only the engine step of a DERIVE writes OUT and OUT_COUNT (R32, R38). -/
theorem engineStep_out_of_not_derive {s t : State} (hn : ∀ n, s.dev.pend ≠ .derive n) (h : engineStep s = .next t) :
    t.dev.outCount = s.dev.outCount ∧ t.dev.mem = s.dev.mem := by
  rcases engineStep_cases h with ⟨n, hp, -⟩ | ⟨n, -, rfl⟩
  · exact absurd hp (hn n)
  · rcases engineVerify_cases s.cfg s.dev n with ⟨r, -, e⟩ | ⟨-, r, -, e⟩ <;> simp [e]

/-- Settles O15, by the frame of each of the three. -/
theorem eachPieceOfStateHasItsWriters : Obligations.EachPieceOfStateHasItsWriters := by
  refine ⟨fun s t x hx h => ?_, fun s t w hb h => ?_, fun s t h => ?_⟩
  · have k := hostStep_keepsCommandState hx h
    exact ⟨(hostStep_dev_cases h).1, k.busy, k.pend, k.err, k.errArg, k.outCount, k.done, k.out⟩
  · obtain rfl := Host.Outcome.next.inj ((hostStep_cmd hb w).symm.trans h)
    exact ⟨rfl, issued_berr _ _, issued_ie _ _, issued_slot _ _, fun a => read_issued_outside _ _,
      issued_out_of_not_derive _⟩
  · obtain ⟨-, -, -, -, -, -, -, hc, -⟩ := engineStep_done h
    have f := engineStep_frame h
    exact ⟨hc, f.berr, f.ie, f.slot, f.outside, fun hn => engineStep_out_of_not_derive hn h⟩

/-! ## A step -/

/-- What a step can do to the state of the command: nothing, a reset, the engine step, or the issue of a word
while idle. -/
theorem step_command_cases {s t : State} (h : step s = .next t) :
    KeepsCommandState s.dev t.dev ∨
    (∃ rest, s.inputs = .reset :: rest ∧ t.dev = Hkx.reset) ∨
    engineStep { s with turns := t.turns } = .next t ∨
    (s.dev.busy = false ∧ ∃ w rest, s.inputs = .bus (wr 0x0010#16 w) :: rest ∧ t.dev = s.dev.issued w) := by
  obtain ⟨-, e | ⟨e, -⟩ | hr | ⟨-, he⟩ |
    ⟨hb, rest, x, hi, ⟨w, rfl, e⟩ | ⟨w, -, e⟩ | ⟨w, -, e⟩ | ⟨y, w, -, e⟩ | ⟨y, o, w, e⟩⟩⟩ := step_dev_cases h
  · exact .inl (e ▸ .refl _)
  · exact .inl (e ▸ .setBerr _ _)
  · exact .inr (.inl hr)
  · exact .inr (.inr (.inl he))
  · exact .inr (.inr (.inr ⟨hb, w, rest, hi, e⟩))
  · exact .inl (e ▸ .writeStatus _ _)
  · exact .inl (e ▸ .writeIrqEn _ _)
  · exact .inl (e ▸ .writeLen _ _ _)
  · exact .inl (e ▸ .writeWin _ _ _ _)

/-- Settles O45. -/
theorem configurationIsFixed : Obligations.ConfigurationIsFixed :=
  fun _ _ h => (step_dev_cases h).1

/-! ### BUSY (R27) -/

theorem step_busy_rises {s t : State} (h : step s = .next t) (hs : s.dev.busy = false) (ht : t.dev.busy = true) :
    ∃ w rest i, s.inputs = .bus (wr 0x0010#16 w) :: rest ∧ decode w = .ok i ∧ i ≠ .nop := by
  rcases step_command_cases h with k | ⟨rest, -, e⟩ | he | ⟨-, w, rest, hi, e⟩
  · rw [k.busy, hs] at ht; cases ht
  · rw [e] at ht; cases ht
  · rw [(engineStep_done he).1] at ht; cases ht
  · rcases issued_completes_or_starts s.dev w with ⟨-, -, hbusy⟩ | ⟨⟨i, hd, hn⟩, -, -⟩
    · rw [e, hbusy, hs] at ht; cases ht
    · exact ⟨w, rest, i, hi, hd, hn⟩

theorem step_busy_falls {s t : State} (h : step s = .next t) (hs : s.dev.busy = true) (ht : t.dev.busy = false) :
    engineStep { s with turns := t.turns } = .next t ∨ ∃ rest, s.inputs = .reset :: rest := by
  rcases step_command_cases h with k | ⟨rest, hi, -⟩ | he | ⟨hb, -⟩
  · rw [k.busy, hs] at ht; cases ht
  · exact .inr ⟨rest, hi⟩
  · exact .inl he
  · rw [hs] at hb; cases hb

/-- Settles O46, by what a step can do to the state of the command. -/
theorem busyRisesByIssueAndFallsByCompletion : Obligations.BusyRisesByIssueAndFallsByCompletion :=
  ⟨fun _ _ => step_busy_rises, fun _ _ => step_busy_falls, fun _ hs => hs.pending.mpr,
    fun _ _ hb hk => hostStep_write_busy hb hk, rfl⟩

/-! ### DONE (R28) -/

theorem step_done_rises {s t : State} (h : step s = .next t) (hs : s.dev.done = false) (ht : t.dev.done = true) :
    engineStep { s with turns := t.turns } = .next t ∨
    ∃ w rest, s.inputs = .bus (wr 0x0010#16 w) :: rest ∧ (decode w = .ok .nop ∨ ∃ why, decode w = .error why) := by
  rcases step_command_cases h with k | ⟨rest, -, e⟩ | he | ⟨-, w, rest, hi, e⟩
  · rw [k.done ht] at hs; cases hs
  · rw [e] at ht; cases ht
  · exact .inl he
  · rcases issued_completes_or_starts s.dev w with ⟨hd, -, -⟩ | ⟨-, hdone, -⟩
    · exact .inr ⟨w, rest, hi, hd⟩
    · rw [e, hdone] at ht; cases ht

theorem step_done_falls {s t : State} (h : step s = .next t) (hs : s.dev.done = true) (ht : t.dev.done = false) :
    (∃ rest, s.inputs = .reset :: rest) ∨
    (∃ w rest, s.inputs = .bus (wr 0x0014#16 w) :: rest ∧ w.getLsbD 1 = true) ∨
    ∃ w rest i, s.inputs = .bus (wr 0x0010#16 w) :: rest ∧ decode w = .ok i ∧ i ≠ .nop := by
  obtain ⟨-, e | ⟨e, -⟩ | ⟨rest, hi, -⟩ | ⟨-, he⟩ |
    ⟨-, rest, x, hi, ⟨w, rfl, e⟩ | ⟨w, rfl, e⟩ | ⟨w, -, e⟩ | ⟨y, w, -, e⟩ | ⟨y, o, w, e⟩⟩⟩ := step_dev_cases h
  · simp [e, hs] at ht
  · simp [e, hs] at ht
  · exact .inl ⟨rest, hi⟩
  · simp [(engineStep_done he).2.1] at ht
  · rcases issued_completes_or_starts s.dev w with ⟨-, hdone, -⟩ | ⟨⟨i, hd, hn⟩, -, -⟩
    · simp [e, hdone] at ht
    · exact .inr (.inr ⟨w, rest, i, hi, hd, hn⟩)
  · exact .inr (.inl ⟨w, rest, hi, by simpa [e, hs] using ht⟩)
  · simp [e, hs] at ht
  · simp [e, hs] at ht
  · simp [e, hs] at ht

/-- Settles O47, by what a step can do to DONE. -/
theorem doneRisesByCompletionOnly : Obligations.DoneRisesByCompletionOnly := by
  refine ⟨fun _ _ => step_done_rises, fun _ _ => step_done_falls, fun s t h => (engineStep_done h).2.1,
    fun s w hb => ⟨_, hostStep_cmd hb w, issued_done_iff _ _⟩,
    fun s w hb hw => ⟨_, hostStep_wr_status hb w, ?_⟩, fun _ hs => hs.notBusyAndDone, rfl⟩
  simp [hw]

/-! ### BERR (R29) -/

theorem step_berr_rises {s t : State} (h : step s = .next t) (hs : s.dev.berr = false) (ht : t.dev.berr = true) :
    t.lastResp = some ⟨.error, 0#32⟩ := by
  obtain ⟨-, e | ⟨-, hl⟩ | ⟨rest, -, e⟩ | ⟨-, he⟩ |
    ⟨-, rest, x, -, ⟨w, -, e⟩ | ⟨w, -, e⟩ | ⟨w, -, e⟩ | ⟨y, w, -, e⟩ | ⟨y, o, w, e⟩⟩⟩ := step_dev_cases h
  · simp [e, hs] at ht
  · exact hl
  · rw [e] at ht; cases ht
  · simp [(engineStep_frame he).berr, hs] at ht
  all_goals simp [e, hs] at ht

theorem step_berr_falls {s t : State} (h : step s = .next t) (hs : s.dev.berr = true) (ht : t.dev.berr = false) :
    (∃ rest, s.inputs = .reset :: rest) ∨
    ∃ w rest, s.inputs = .bus (wr 0x0014#16 w) :: rest ∧ w.getLsbD 2 = true ∧ s.dev.busy = false := by
  obtain ⟨-, e | ⟨e, -⟩ | ⟨rest, hi, -⟩ | ⟨-, he⟩ |
    ⟨hb, rest, x, hi, ⟨w, -, e⟩ | ⟨w, rfl, e⟩ | ⟨w, -, e⟩ | ⟨y, w, -, e⟩ | ⟨y, o, w, e⟩⟩⟩ := step_dev_cases h
  · simp [e, hs] at ht
  · simp [e] at ht
  · exact .inl ⟨rest, hi⟩
  · simp [(engineStep_frame he).berr, hs] at ht
  · simp [e, hs] at ht
  · exact .inr ⟨w, rest, hi, by simpa [e, hs] using ht, hb⟩
  all_goals simp [e, hs] at ht

/-- An ERROR response comes with BERR set. -/
theorem hostStep_error_berr {s t : State} {x : Transaction} {v : Word} (h : hostStep s x = .next t)
    (hl : t.lastResp = some ⟨.error, v⟩) : t.dev.berr = true := by
  rcases hostStep_response s x with e | ⟨d, v', e⟩ <;> obtain rfl := Host.Outcome.next.inj (e.symm.trans h)
  · rfl
  · cases hl

/-- Settles O48, by what a step can do to BERR. -/
theorem busErrorFlagIsSticky : Obligations.BusErrorFlagIsSticky := by
  refine ⟨fun _ _ _ _ => hostStep_error_berr, fun _ _ => step_berr_rises, fun _ _ => step_berr_falls,
    fun s w hb hw => ⟨_, hostStep_wr_status hb w, ?_⟩, rfl⟩
  simp [hw]

/-! ### OUT and OUT_COUNT (R32, R38) -/

/-- Settles O50: an issue or an engine step that is no DERIVE's leaves OUT and OUT_COUNT as they are. -/
theorem onlyDeriveWritesOut : Obligations.OnlyDeriveWritesOut := by
  intro s t h hchange
  have hsame (hc : t.dev.outCount = s.dev.outCount) (hm : ∀ a, inOut a → t.dev.mem.read a = s.dev.mem.read a) :
      False := by
    rcases hchange with ⟨a, ha, hne⟩ | hne
    · exact hne (hm a ha)
    · exact hne hc
  rcases step_command_cases h with k | ⟨rest, hi, -⟩ | he | ⟨-, w, rest, hi, e⟩
  · exact (hsame k.outCount k.out).elim
  · exact .inl ⟨rest, hi⟩
  · refine .inr (.inr ⟨?_, he⟩)
    by_contra hn
    obtain ⟨hc, hm⟩ := engineStep_out_of_not_derive (s := { s with turns := t.turns }) (not_exists.mp hn) he
    exact hsame hc fun a _ => by rw [hm]
  · refine .inr (.inl ⟨w, rest, hi, ?_⟩)
    by_contra hn
    obtain ⟨hdef, hn⟩ := not_or.mp hn
    obtain ⟨hc, hm⟩ := issued_out_of_not_derive s.dev (not_exists.mp hn) hdef
    exact hsame (by rw [e, hc]) fun a _ => by rw [e, hm]

end Sys2Proof.Proofs
end

section
/-! # The words of the windows and of OUT (R67, R70, R71, R76) -/

namespace Sys2Proof.Proofs
open Sys2Proof.Machine

/-- Byte `j` of a word stored is bits `8j+7:8j` of the word (R70). -/
theorem read_writeWord_inside {m : Memory} (hm : m.wf) (a : Nat) (w : Word) {j : Nat} (hj : j < 4) :
    (m.writeWord a w).read (a + j) = w.extractLsb' (8 * j) 8 := by
  rw [← Memory.readWord_extract _ _ hj, Memory.readWord_writeWord hm]

theorem read_writeWord_outside (m : Memory) {a b : Nat} (w : Word) (h : b < a ∨ a + 4 ≤ b) :
    (m.writeWord a w).read b = m.read b :=
  Memory.read_writeBytes_outside m a b (le32Bytes w) h

/-- A stored word leaves every word read that it does not meet. -/
theorem readWord_writeWord_outside (m : Memory) {a b : Nat} (w : Word) (h : b + 4 ≤ a ∨ a + 4 ≤ b) :
    (m.writeWord a w).readWord b = m.readWord b :=
  Memory.readWord_congr fun _ _ => read_writeWord_outside m w (by omega)

/-- Two mapped words of the windows, aligned and not the same one, do not meet (R62, R63). -/
theorem winWords_disjoint {cfg : Config} (hc : cfg.wf) {x y : Slot} {o p : Nat} (ho4 : o % 4 = 0)
    (ho : o < cfg.cap x) (hp4 : p % 4 = 0) (hp : p < cfg.cap y) (h : x ≠ y ∨ o ≠ p) :
    winBase x + o + 4 ≤ winBase y + p ∨ winBase y + p + 4 ≤ winBase x + o := by
  have hx := Config.wf.cap_le hc x
  have hy := Config.wf.cap_le hc y
  cases x <;> cases y <;> simp only [winBase, winSize, ne_eq, reduceCtorEq, not_true_eq_false, not_false_eq_true,
    false_or] at * <;> omega

/-- Settles O11: a window write is one word stored. -/
theorem windowWriteStoresTheWord : Obligations.WindowWriteStoresTheWord :=
  fun _ x o w hc hm hb h4 ho => ⟨_, hostStep_wr_win w hb hc h4 ho,
    fun _ => read_writeWord_inside hm (winBase x + o) w, fun _ => read_writeWord_outside _ w, rfl⟩

/-- Settles O12: a read answers the word at the offset and leaves the device as it is. -/
theorem windowAndOutReadsAreLittleEndian : Obligations.WindowAndOutReadsAreLittleEndian :=
  ⟨fun _ _ _ hc h4 ho => ⟨_, hostStep_rd_win hc h4 ho, fun _ => Memory.readWord_extract _ _⟩,
    fun _ _ h4 ho => ⟨_, hostStep_rd_out h4 ho, fun _ => Memory.readWord_extract _ _⟩⟩

/-- Settles O13: the second word written does not meet the first, which is read back whole. -/
theorem windowReadAnswersTheLatestWrite : Obligations.WindowReadAnswersTheLatestWrite := by
  intro s x y o p v w hc hm hb ho4 ho hp4 hp hne
  refine ⟨_, _, _, hostStep_wr_win v hb hc ho4 ho, hostStep_wr_win w hb hc hp4 hp, hostStep_rd_win hc ho4 ho, ?_⟩
  have hread : ((s.dev.mem.writeWord (winBase x + o) v).writeWord (winBase y + p) w).readWord (winBase x + o) = v := by
    rw [readWord_writeWord_outside _ _ (winWords_disjoint hc ho4 ho hp4 hp hne), Memory.readWord_writeWord hm]
  exact congrArg (fun u => some (Response.mk .okay u)) hread

end Sys2Proof.Proofs
end

section
/-! # Which agent moves (R73, R76, R110, R120), and what holds while a command is pending (R79, R244) -/

namespace Sys2Proof.Proofs
open Sys2Proof.Machine

section
variable {s : State} {i : Input} {rest : List Input} {ts : List Agent}

theorem step_idle (hb : s.dev.busy = false) (hi : s.inputs = []) : step s = .next s := by
  simp only [step, move, hb, hi]

theorem step_input_idle (hb : s.dev.busy = false) (hi : s.inputs = i :: rest) :
    step s = inputStep { s with inputs := rest } i := by
  simp only [step, move, hb, hi]

/-- The host's turn of the schedule. -/
theorem step_input_busy (hb : s.dev.busy = true) (hi : s.inputs = i :: rest) (ht : s.turns = .host :: ts) :
    step s = inputStep { s with inputs := rest, turns := ts } i := by
  simp only [step, move, hb, hi, ht]

/-- The engine moves while nothing contends with it, and once the schedule is used up. -/
theorem step_engine (hb : s.dev.busy = true) (h : s.inputs = [] ∨ s.turns = []) : step s = engineStep s := by
  rcases h with hi | ht
  · simp only [step, move, hb, hi]
  · cases hi : s.inputs <;> simp only [step, move, hb, hi, ht]

/-- The engine's turn of the schedule. -/
theorem step_engine_turn (hb : s.dev.busy = true) (hi : s.inputs ≠ []) (ht : s.turns = .engine :: ts) :
    step s = engineStep { s with turns := ts } := by
  obtain ⟨i, rest, hi⟩ := List.exists_cons_of_ne_nil hi
  simp only [step, move, hb, hi, ht]

end

/-- Settles O34, by the move of each turn; a transaction's turn is `hostStep` of it. -/
theorem stepFollowsTheSchedule : Obligations.StepFollowsTheSchedule := fun _ =>
  ⟨step_idle, fun _ _ hb hi => step_input_idle hb hi, step_engine, fun _ => step_engine_turn,
    fun _ _ _ hb hi ht => step_input_busy hb hi ht⟩

/-- Settles O33: the turn is the host's, and its CMD write is `exec` of the decoded command. -/
theorem stepRunsTheDecodedCommand : Obligations.StepRunsTheDecodedCommand := fun s _ rest hi =>
  ⟨fun _ hd => ⟨fun hb => (step_input_idle hb hi).trans (hostStep_cmd_decoded _ hd),
      fun _ hb ht => (step_input_busy hb hi ht).trans (hostStep_cmd_decoded _ hd)⟩,
    fun _ hd hb => (step_input_idle hb hi).trans (hostStep_cmd_illegal (s := { s with inputs := rest }) hb hd)⟩

/-- Settles O51: of all that a step can do to the device, a reset and the engine step end with BUSY = 0, and a
write is accepted only while BUSY = 0. -/
theorem operandsHoldUntilCompletion : Obligations.OperandsHoldUntilCompletion := by
  intro s t h hs ht
  rcases (step_dev_cases h).2 with e | ⟨e, -⟩ | ⟨rest, -, e⟩ | ⟨-, he⟩ | ⟨hb, -⟩
  · exact .inl e
  · exact .inr e
  · rw [e] at ht; cases ht
  · rw [(engineStep_done he).1] at ht; cases ht
  · rw [hs] at hb; cases hb

end Sys2Proof.Proofs
end

section
/-! # What a transaction done twice does (R74)

A bus error has its cause still when the transaction is done again; a read leaves nothing that it looks at; and
each write but a CMD write puts the same value again. -/

namespace Sys2Proof.Proofs
open Sys2Proof.Machine

/-! ## Bus errors (R206) -/

theorem okay_ne_busError (s : State) (d : Hkx) (v : Word) : s.okay d v ≠ s.busError := fun h => by
  cases congrArg State.lastResp h

theorem aligned_eq_false_iff (a : Addr) : aligned a = false ↔ a.toNat % 4 ≠ 0 := by
  rw [← Bool.not_eq_true, aligned_iff]

/-- A transaction with a cause of R206 is a bus error. -/
theorem hostStep_of_busErrorCause {s : State} {x : Transaction} (h : busErrorCause s x) :
    hostStep s x = .next s.busError := by
  unfold hostStep
  split
  · rfl
  next hfit =>
    split
    · rfl
    next hidle =>
      rcases h with h | h | h | ⟨y, o, h, ho⟩ | ⟨hk, h | ⟨y, h⟩ | ⟨o, h⟩⟩ | h
      · exact absurd (.inl h) hfit
      · exact absurd (.inr ((aligned_eq_false_iff _).mpr h)) hfit
      · simp only [h]
      · simp only [h]; rw [if_pos ho]
      · simp only [h, hk, readOnly]
      · simp only [h, hk, readOnly]
      · simp only [h, hk, readOnly]
      · exact absurd h hidle

/-- A transaction without one is OKAY. -/
theorem hostStep_of_not_busErrorCause {s : State} {x : Transaction} (h : ¬ busErrorCause s x) :
    ∃ d v, hostStep s x = .next (s.okay d v) := by
  simp only [busErrorCause, not_or] at h
  obtain ⟨hsize, hal, hres, hcap, hro, hidle⟩ := h
  unfold hostStep
  rw [if_neg (by rw [aligned_eq_false_iff]; exact not_or.mpr ⟨hsize, hal⟩), if_neg hidle]
  cases hd : decodeAddr x.addr with
  | reserved => exact absurd hd hres
  | win y o =>
    dsimp only
    rw [if_neg fun ho => hcap ⟨y, o, hd, ho⟩]
    cases x.kind <;> exact ⟨_, _, rfl⟩
  | out o =>
    cases hk : x.kind with
    | read => exact ⟨_, _, rfl⟩
    | write => exact absurd ⟨hk, .inr (.inr ⟨o, hd⟩)⟩ hro
  | reg r =>
    cases hk : x.kind with
    | read => cases r <;> exact ⟨_, _, rfl⟩
    | write =>
      cases r with
      | id => exact absurd ⟨hk, .inl hd⟩ hro
      | cap y => exact absurd ⟨hk, .inr (.inl ⟨y, hd⟩)⟩ hro
      | cmd =>
        have hb : s.dev.busy = false := Bool.eq_false_iff.mpr fun hb => hidle ⟨hk, hb⟩
        exact ⟨_, _, (issue_eq s _).trans (congrArg _ (State.issueCmd_idle hb _))⟩
      | status => exact ⟨_, _, rfl⟩
      | irqEn => exact ⟨_, _, rfl⟩
      | len y => exact ⟨_, _, rfl⟩

/-- The bus errors are the transactions with a cause of R206, and no others. -/
theorem hostStep_eq_busError_iff (s : State) (x : Transaction) :
    hostStep s x = .next s.busError ↔ busErrorCause s x := by
  refine ⟨fun he => ?_, hostStep_of_busErrorCause⟩
  by_contra hn
  obtain ⟨d, v, h⟩ := hostStep_of_not_busErrorCause hn
  exact okay_ne_busError s d v (Host.Outcome.next.inj (h.symm.trans he))

/-! ## The same transaction again -/

/-- No transaction looks at the last response: each answers with one of its own (log entry 6). -/
theorem hostStep_lastResp (s : State) (r : Option Response) (x : Transaction) :
    hostStep { s with lastResp := r } x = hostStep s x := rfl

theorem writeStatus_twice (d : Hkx) (w : Word) : (d.writeStatus w).writeStatus w = d.writeStatus w := by
  simp [Hkx.writeStatus]

theorem writeLen_twice (d : Hkx) (x : Slot) (w : Word) : (d.writeLen x w).writeLen x w = d.writeLen x w := by
  cases x <;> rfl

theorem writeWin_twice {d : Hkx} (hm : d.mem.wf) (x : Slot) (o : Nat) (w : Word) :
    (d.writeWin x o w).writeWin x o w = d.writeWin x o w :=
  congrArg (fun m => { d with mem := m }) (Memory.writeBytes_twice hm _ _)

/-- Every transaction but a CMD write leaves the same state done twice as done once (R74). -/
theorem hostStep_twice {s t : State} {x : Transaction} (hm : s.dev.mem.wf)
    (hx : ¬ (x.kind = .write ∧ decodeAddr x.addr = .reg .cmd)) (h : hostStep s x = .next t) :
    hostStep t x = .next t := by
  rcases hostStep_cases s x with e | ⟨v, e, -⟩ | ⟨hs, ha, hk, hb, c⟩
  · obtain rfl := Host.Outcome.next.inj (e.symm.trans h)
    exact (hostStep_eq_busError_iff s.busError x).mpr ((hostStep_eq_busError_iff s x).mp e)
  · obtain rfl := Host.Outcome.next.inj (e.symm.trans h)
    exact (hostStep_lastResp s _ x).trans h
  · obtain ⟨k, a, size, w⟩ := x
    subst hk hs
    rcases c with ⟨hd, e⟩ | ⟨hd, e⟩ | ⟨hd, e⟩ | ⟨y, hd, e⟩ | ⟨y, o, hd, ho, e⟩ <;>
      obtain rfl := Host.Outcome.next.inj (e.symm.trans h)
    · exact absurd ⟨rfl, hd⟩ hx
    · refine (hostStep_wr (s := s.okay (s.dev.writeStatus w) 0#32) hb ha w).trans ?_
      simp only [hd, State.okay_dev, writeStatus_twice]; rfl
    · refine (hostStep_wr (s := s.okay (s.dev.writeIrqEn w) 0#32) hb ha w).trans ?_
      simp only [hd]; rfl
    · refine (hostStep_wr (s := s.okay (s.dev.writeLen y w) 0#32) ((Hkx.writeLen_busy _ _ _).trans hb) ha w).trans ?_
      simp only [hd, State.okay_dev, writeLen_twice]; rfl
    · refine (hostStep_wr (s := s.okay (s.dev.writeWin y o w) 0#32) hb ha w).trans ?_
      simp only [hd, State.okay_cfg, State.okay_dev, if_neg (Nat.not_le_of_lt ho), writeWin_twice hm]; rfl

/-- A read leaves the device as it is, or is a bus error. -/
theorem hostStep_read {s t : State} {x : Transaction} (hk : x.kind = .read) (h : hostStep s x = .next t) :
    t.dev = s.dev ∨ (busErrorCause s x ∧ t.dev = { s.dev with berr := true }) := by
  rcases hostStep_cases s x with e | ⟨v, e, -⟩ | ⟨-, -, hw, -⟩
  · obtain rfl := Host.Outcome.next.inj (e.symm.trans h)
    exact .inr ⟨(hostStep_eq_busError_iff s x).mp e, rfl⟩
  · obtain rfl := Host.Outcome.next.inj (e.symm.trans h)
    exact .inl rfl
  · rw [hk] at hw; cases hw

/-- The issue of a command other than NOP starts it (R113). -/
theorem issued_busy (d : Hkx) {w : Word} {i : Instr} (hd : decode w = .ok i) (hi : i ≠ .nop) :
    (d.issued w).busy = true := by
  rcases issued_completes_or_starts d w with ⟨-, hdone, -⟩ | ⟨-, -, hbusy⟩
  · exact absurd ((issued_done_iff d w).mp hdone i hd) hi
  · exact hbusy

/-- Settles O14: reads, transactions done twice, and the write after a command was started. -/
theorem transactionsAreIdempotentButForCommands : Obligations.TransactionsAreIdempotentButForCommands :=
  ⟨fun _ _ _ => hostStep_read, fun _ _ _ => hostStep_twice, fun s w _ _ hb hd hi =>
    ⟨_, hostStep_cmd hb w, hostStep_write_busy (issued_busy s.dev hd hi) rfl⟩⟩

end Sys2Proof.Proofs
end

section
/-! # The command word (R92, R96, R97, R99)

A word is its four fields.  Encoding is read field by field; a row of R96 with the mask 0xFFFF00FF is a condition on
three of them; and the classes of R97 are what is left over. -/

namespace Sys2Proof.Proofs
open Sys2Proof.Machine

/-! ## The encoder (R99) -/

section
variable (c : Word) (n : Byte)

theorem fieldOp_or_arg : fieldOp (c ||| (n.setWidth 32 <<< (8 : Nat))) = fieldOp c := by
  ext i hi
  simp [fieldOp, hi]

theorem fieldArg_or_arg : fieldArg (c ||| (n.setWidth 32 <<< (8 : Nat))) = fieldArg c ||| n := by
  ext i hi
  simp [fieldArg, show 8 + i < 32 by omega, BitVec.getLsbD_eq_getElem hi]

theorem fieldG_or_arg : fieldG (c ||| (n.setWidth 32 <<< (8 : Nat))) = fieldG c := by
  simp [fieldG]

theorem fieldRsv_or_arg : fieldRsv (c ||| (n.setWidth 32 <<< (8 : Nat))) = fieldRsv c := by
  ext i hi
  simp [fieldRsv, show ¬ 17 + i < 8 by omega, show 8 ≤ 17 + i - 8 by omega]

end

/-- The command's word decodes to it (R96, R99). -/
theorem decode_encode (i : Instr) : decode (encode i) = .ok i := by
  cases i with
  | nop => exact decode_eq_nop.mpr rfl
  | deriveDef => exact decode_eq_deriveDef.mpr rfl
  | derive n =>
    exact decode_eq_derive.mpr ⟨⟨fieldRsv_or_arg _ n, fieldG_or_arg _ n, fieldOp_or_arg _ n⟩,
      ((fieldArg_or_arg _ n).trans BitVec.zero_or).symm⟩
  | verify n =>
    exact decode_eq_verify.mpr ⟨⟨fieldRsv_or_arg _ n, fieldG_or_arg _ n, fieldOp_or_arg _ n⟩,
      ((fieldArg_or_arg _ n).trans BitVec.zero_or).symm⟩

/-- Two words that decode to one command are the same word: ARG and the fields a command fixes are all four. -/
theorem decode_ok_inj {w v : Word} {i : Instr} (hw : decode w = .ok i) (hv : decode v = .ok i) : w = v := by
  cases i with
  | nop => exact (decode_eq_nop.mp hw).trans (decode_eq_nop.mp hv).symm
  | deriveDef => exact (decode_eq_deriveDef.mp hw).trans (decode_eq_deriveDef.mp hv).symm
  | derive n =>
    obtain ⟨⟨hr, hg, ho⟩, ha⟩ := decode_eq_derive.mp hw
    obtain ⟨⟨hr', hg', ho'⟩, ha'⟩ := decode_eq_derive.mp hv
    exact word_ext (ho.trans ho'.symm) (ha.symm.trans ha') (hg.trans hg'.symm) (hr.trans hr'.symm)
  | verify n =>
    obtain ⟨⟨hr, hg, ho⟩, ha⟩ := decode_eq_verify.mp hw
    obtain ⟨⟨hr', hg', ho'⟩, ha'⟩ := decode_eq_verify.mp hv
    exact word_ext (ho.trans ho'.symm) (ha.symm.trans ha') (hg.trans hg'.symm) (hr.trans hr'.symm)

theorem encode_of_decode {w : Word} {i : Instr} (h : decode w = .ok i) : encode i = w :=
  decode_ok_inj (decode_encode i) h

/-- Settles O1, by the fields of an encoded command; the converse since a command has one word. -/
theorem decodeInvertsEncode : Obligations.DecodeInvertsEncode :=
  ⟨fun i _ => decode_encode i, fun _ _ => encode_of_decode⟩

/-! ## The rows (R96) -/

/-- The mask of DERIVE and of VERIFY leaves ARG out and looks at the other three fields. -/
theorem and_argMask_eq_iff {w v : Word} (hv : fieldArg v = 0#8) :
    w &&& 0xFFFF00FF#32 = v ↔ fieldRsv w = fieldRsv v ∧ fieldG w = fieldG v ∧ fieldOp w = fieldOp v := by
  have hop : fieldOp 0xFFFF00FF#32 = BitVec.allOnes 8 := by decide
  have harg : fieldArg 0xFFFF00FF#32 = 0#8 := by decide
  have hg : fieldG 0xFFFF00FF#32 = true := by decide
  have hrsv : fieldRsv 0xFFFF00FF#32 = BitVec.allOnes 15 := by decide
  rw [word_ext_iff]
  simp only [fieldOp_and, fieldArg_and, fieldG_and, fieldRsv_and, hop, harg, hg, hrsv, hv, BitVec.and_allOnes,
    BitVec.and_zero, Bool.and_true, true_and]
  exact ⟨fun ⟨ho, hg, hr⟩ => ⟨hr, hg, ho⟩, fun ⟨hr, hg, ho⟩ => ⟨ho, hg, hr⟩⟩

theorem decode_eq_nop_iff_row {w : Word} : decode w = .ok .nop ↔ w &&& 0xFFFFFFFF#32 = 0x00000000#32 :=
  (BitVec.and_allOnes (x := w)).symm ▸ decode_eq_nop

theorem decode_eq_deriveDef_iff_row {w : Word} : decode w = .ok .deriveDef ↔ w &&& 0xFFFFFFFF#32 = 0x00000001#32 :=
  (BitVec.and_allOnes (x := w)).symm ▸ decode_eq_deriveDef

theorem decode_eq_derive_iff_row {w : Word} {n : Byte} :
    decode w = .ok (.derive n) ↔ w &&& 0xFFFF00FF#32 = 0x00010001#32 ∧ n = fieldArg w :=
  decode_eq_derive.trans (and_congr_left' (and_argMask_eq_iff (v := 0x00010001#32) rfl).symm)

theorem decode_eq_verify_iff_row {w : Word} {n : Byte} :
    decode w = .ok (.verify n) ↔ w &&& 0xFFFF00FF#32 = 0x00010002#32 ∧ n = fieldArg w :=
  decode_eq_verify.trans (and_congr_left' (and_argMask_eq_iff (v := 0x00010002#32) rfl).symm)

/-- A word that decodes to a command is selected by the rows that bear the command's mnemonic. -/
theorem selects_iff_of_decode {w : Word} {i : Instr} (h : decode w = .ok i) {r : OpcodeRow} (hr : r ∈ opcodeRows) :
    r.selects w = true ↔ r.mnemonic = i.mnemonic := by
  have own : Laws.OwnRow.Statement i := by
    cases i with
    | nop => exact Laws.OwnRow.nop
    | deriveDef => exact Laws.OwnRow.deriveDef
    | derive n => exact Laws.OwnRow.derive n
    | verify n => exact Laws.OwnRow.verify n
  exact encode_of_decode h ▸ own.2 r hr

theorem exists_row_of_mnemonic (i : Instr) : ∃ r ∈ opcodeRows, r.mnemonic = i.mnemonic := by
  cases i <;> simp [opcodeRows, Instr.mnemonic]

theorem row_eq_of_mnemonic_eq : ∀ r ∈ opcodeRows, ∀ r' ∈ opcodeRows, r.mnemonic = r'.mnemonic → r = r' := by decide

/-- Every word that a row selects decodes to a command. -/
theorem exists_decode_of_selects {w : Word} {r : OpcodeRow} (hr : r ∈ opcodeRows) (h : r.selects w = true) :
    ∃ i, decode w = .ok i := by
  have h := eq_of_beq h
  simp only [opcodeRows, List.mem_cons, List.not_mem_nil, or_false] at hr
  rcases hr with rfl | rfl | rfl | rfl
  · exact ⟨_, decode_eq_nop_iff_row.mpr h⟩
  · exact ⟨_, decode_eq_deriveDef_iff_row.mpr h⟩
  · exact ⟨_, decode_eq_derive_iff_row.mpr ⟨h, rfl⟩⟩
  · exact ⟨_, decode_eq_verify_iff_row.mpr ⟨h, rfl⟩⟩

/-- R96: the rows are disjoint, since a word decodes to one command and a mnemonic has one row. -/
theorem row_eq_of_selects {w : Word} {r r' : OpcodeRow} (hr : r ∈ opcodeRows) (hr' : r' ∈ opcodeRows)
    (h : r.selects w = true) (h' : r'.selects w = true) : r = r' := by
  obtain ⟨i, hi⟩ := exists_decode_of_selects hr h
  exact row_eq_of_mnemonic_eq r hr r' hr'
    (((selects_iff_of_decode hi hr).mp h).trans ((selects_iff_of_decode hi hr').mp h').symm)

/-- R96: ILLEGAL is what no row selects. -/
theorem decode_error_iff_no_row {w : Word} :
    (∃ why, decode w = .error why) ↔ ∀ r ∈ opcodeRows, r.selects w = false := by
  cases hd : decode w with
  | error why =>
    refine iff_of_true ⟨why, rfl⟩ fun r hr => Bool.eq_false_iff.mpr fun h => ?_
    obtain ⟨i, hi⟩ := exists_decode_of_selects hr h
    rw [hd] at hi; cases hi
  | ok i =>
    obtain ⟨r, hr, hm⟩ := exists_row_of_mnemonic i
    have hsel := (selects_iff_of_decode hd hr).mpr hm
    exact iff_of_false (by rintro ⟨_, ⟨⟩⟩) fun hno => by rw [hno r hr] at hsel; cases hsel

/-- Settles O2, each row by the fields its mask looks at. -/
theorem opcodeRowsSelectTheCommand : Obligations.OpcodeRowsSelectTheCommand := fun _ =>
  ⟨decode_eq_nop_iff_row, decode_eq_deriveDef_iff_row, fun _ => decode_eq_derive_iff_row,
    fun _ => decode_eq_verify_iff_row, fun _ hr _ hr' => row_eq_of_selects hr hr', decode_error_iff_no_row⟩

/-! ## The ILLEGAL words (R97) -/

theorem byte_small_or_three_le (b : Byte) : b = 0#8 ∨ b = 1#8 ∨ b = 2#8 ∨ 3 ≤ b.toNat := by
  bv_omega

/-- R97: the ILLEGAL words, by OP: each value below 3 leaves a condition on the other fields, and no value from 3 on is
a command's. -/
theorem decode_error_iff_listed {w : Word} :
    (∃ why, decode w = .error why) ↔
      3 ≤ (fieldOp w).toNat ∨ fieldRsv w ≠ 0#15 ∨
      (fieldOp w = 0#8 ∧ (fieldArg w ≠ 0#8 ∨ fieldG w = true)) ∨
      (fieldOp w = 1#8 ∧ fieldG w = false ∧ fieldArg w ≠ 0#8) ∨
      (fieldOp w = 2#8 ∧ fieldG w = false) := by
  have hnop : w = 0#32 ↔ fieldOp w = 0#8 ∧ fieldArg w = 0#8 ∧ fieldG w = false ∧ fieldRsv w = 0#15 := word_ext_iff
  have hdef : w = 1#32 ↔ fieldOp w = 1#8 ∧ fieldArg w = 0#8 ∧ fieldG w = false ∧ fieldRsv w = 0#15 := word_ext_iff
  rw [decode_eq_error, ne_eq, ne_eq, hnop, hdef]
  rcases byte_small_or_three_le (fieldOp w) with h | h | h | h
  · simp only [h]; grind
  · simp only [h]; grind
  · simp only [h]; grind
  · have hop : ∀ k : Byte, k.toNat < 3 → fieldOp w ≠ k := fun k hk e => absurd (e ▸ h) (by omega)
    simp [h, hop]

/-- Settles O3: the classes of R97 by the fields, and an ILLEGAL word's CMD write as `execIllegal` while idle. -/
theorem illegalWordsAreTheListedOnes : Obligations.IllegalWordsAreTheListedOnes := fun _ =>
  ⟨decode_error_iff_listed, fun s hb ⟨_, hd⟩ =>
    (hostStep_cmd_illegal hb hd).trans (congrArg _ (State.issueCmd_idle (s := s) hb _))⟩

/-- Settles O4: each word is a fixed one. -/
theorem writtenWordsDecode : Obligations.WrittenWordsDecode := by
  unfold Obligations.WrittenWordsDecode
  decide

end Sys2Proof.Proofs
end

section
/-! # Polls and placed commands (R90, R91, R101, R110)

Both are turns of the outside, which the schedule lets it take. -/

namespace Sys2Proof.Proofs
open Sys2Proof.Machine

/-- A turn of the outside: every one while BUSY = 0, and while BUSY = 1 the host's turns of the schedule. -/
theorem step_input {s : State} {i : Input} {rest : List Input} {ts : List Agent} (hi : s.inputs = i :: rest)
    (hturn : s.dev.busy = false ∧ ts = s.turns ∨ s.dev.busy = true ∧ s.turns = .host :: ts) :
    step s = inputStep { s with inputs := rest, turns := ts } i := by
  rcases hturn with ⟨hb, rfl⟩ | ⟨hb, ht⟩
  · exact step_input_idle hb hi
  · exact step_input_busy hb hi ht

/-- A transaction leaves a response whose rdata is 0 where it is an ERROR (R91), and leaves the queue. -/
theorem hostStep_answers (s : State) (x : Transaction) :
    ∃ t r v, hostStep s x = .next t ∧ t.lastResp = some ⟨r, v⟩ ∧ (r = .error → v = 0#32) ∧ t.lastRdata = v ∧
      t.inputs = s.inputs := by
  rcases hostStep_response s x with e | ⟨d, v, e⟩
  · exact ⟨_, _, _, e, rfl, fun _ => rfl, rfl, rfl⟩
  · exact ⟨_, _, _, e, rfl, nofun, rfl, rfl⟩

/-- A poll's turn: its read, and the poll first in the queue again unless the masked rdata has the value (R101). -/
theorem inputStep_poll {s t : State} {off : Addr} {mask val : Word} (h : hostStep s (rd off) = .next t) :
    inputStep s (.poll off mask val) = .next { t with
      inputs := if t.lastRdata &&& mask = val then t.inputs else .poll off mask val :: t.inputs } := by
  simp only [inputStep, h]
  split <;> rfl

/-- Settles O35: the poll's turn is one read, whose response says whether the poll is put back. -/
theorem pollReadsUntilTheValue : Obligations.PollReadsUntilTheValue := by
  intro s off mask val rest ts hi hturn
  obtain ⟨t, r, v, ht, hresp, herr, hv, hq⟩ := hostStep_answers { s with inputs := rest, turns := ts } (rd off)
  refine ⟨t, r, v, ht, hresp, herr, ?_⟩
  rw [step_input hi hturn, inputStep_poll ht, hv, hq, hi]

/-- The step of a placed command word is its CMD write on the state it was placed in, the turn that was placed with it
being used up. -/
theorem step_placeCmdWrite (s : State) (w : Word) : step (placeCmdWrite s w) = hostStep s (wr 0x0010#16 w) := by
  cases hb : s.dev.busy with
  | false =>
    exact step_input (s := placeCmdWrite s w) (ts := s.turns) rfl (.inl ⟨hb, by simp [placeCmdWrite, hb]⟩)
  | true =>
    exact step_input (s := placeCmdWrite s w) (ts := s.turns) rfl (.inr ⟨hb, by simp [placeCmdWrite, hb]⟩)

theorem decode_of_decodeTableWord {nbits w : Nat} {i : Instr} (h : decodeTableWord nbits w = some i) :
    decode (BitVec.ofNat 32 (w % 2 ^ nbits)) = .ok i := by
  unfold decodeTableWord at h
  split at h
  · split at h
    · next hd => cases h; exact hd
    · cases h
  · cases h

/-- Settles O37: the placed CMD write is the next transaction, and it is `exec` of the word's command. -/
theorem placedWordRunsNext : Obligations.PlacedWordRunsNext := fun s _ _ _ h =>
  (step_placeCmdWrite s _).trans (hostStep_cmd_decoded s (decode_of_decodeTableWord h))

end Sys2Proof.Proofs
end

section
/-! # LOAD (R101, R70, R34, R35)

The words of a byte string are its bytes and the padding of the last word; the run of LOAD, by induction over the words,
stores them from the window's base on and ends with the write of x_LEN. -/

namespace Sys2Proof.Proofs
open Sys2Proof.Machine

/-! ## The words of a byte string -/

theorem le32Bytes_le32 (b0 b1 b2 b3 : Byte) : le32Bytes (le32 b0 b1 b2 b3) = [b0, b1, b2, b3] := by
  obtain ⟨h0, h1, h2, h3⟩ := le32_extract b0 b1 b2 b3
  rw [le32Bytes, h0, h1, h2, h3]

/-- The words hold the byte string, its last word filled up with 0x00. -/
theorem flatMap_le32Bytes_loadWords (bs : Bytes) :
    (loadWords bs).flatMap le32Bytes = bs ++ List.replicate ((bs.length + 3) / 4 * 4 - bs.length) 0#8 := by
  induction bs using loadWords.induct with
  | case1 => rfl
  | case2 b0 => simp [loadWords, le32Bytes_le32]
  | case3 b0 b1 => simp [loadWords, le32Bytes_le32]
  | case4 b0 b1 b2 => simp [loadWords, le32Bytes_le32]
  | case5 b0 b1 b2 b3 rest ih =>
    have hpad : (rest.length + 1 + 1 + 1 + 1 + 3) / 4 * 4 - (rest.length + 1 + 1 + 1 + 1) =
        (rest.length + 3) / 4 * 4 - rest.length := by omega
    simp only [loadWords, List.flatMap_cons, le32Bytes_le32, ih, List.length_cons, List.cons_append, List.nil_append,
      hpad]

theorem length_loadWords (bs : Bytes) : (loadWords bs).length = (bs.length + 3) / 4 := by
  induction bs using loadWords.induct with
  | case1 => rfl
  | case2 b0 => simp [loadWords]
  | case3 b0 b1 => simp [loadWords]
  | case4 b0 b1 b2 => simp [loadWords]
  | case5 b0 b1 b2 b3 rest ih =>
    simp only [loadWords, List.length_cons, ih]
    omega

theorem length_storeWords (a : Nat) (ws : List Word) : (storeWords a ws).length = ws.length := by
  induction ws generalizing a with
  | nil => rfl
  | cons w ws ih => simp only [storeWords, List.length_cons, ih]

/-! ## The run -/

/-- The state after the words `ws` were stored from byte `o` of slot `x` on, and `v` was written to x_LEN, nothing of
the queue being left but `rest`. -/
def loaded (s : State) (x : Slot) (o : Nat) (ws : List Word) (v : Word) (rest : List Input) : State :=
  { s with dev := { s.dev with mem := s.dev.mem.writeBytes (winBase x + o) (ws.flatMap le32Bytes) }.writeLen x v,
           inputs := rest, lastResp := some ⟨.okay, 0#32⟩ }

/-- A run's first step taken off. -/
theorem run_succ {n : Nat} {s t : State} (h : step s = .next t) :
    Host.Core.run Sys2Proof.core (n + 1) s = Host.Core.run Sys2Proof.core n t := by
  have h : Sys2Proof.core.step s = .next t := h
  simp only [Host.Core.run, h]

/-- The transactions of LOAD, one a step, on an idle device: each word is within the capacity, so each write is OKAY
(R70, R101). -/
theorem run_storeWords {s : State} {x : Slot} {o : Nat} {ws : List Word} {v : Word} {rest : List Input}
    (hc : s.cfg.wf) (hb : s.dev.busy = false) (h4 : o % 4 = 0) (hcap : o + 4 * ws.length ≤ s.cfg.cap x)
    (hi : s.inputs = storeWords (winBase x + o) ws ++ .bus (wr (regAddr (.len x)) v) :: rest) :
    Host.Core.run Sys2Proof.core (ws.length + 1) s = .next (loaded s x o ws v rest) := by
  induction ws generalizing s o with
  | nil => exact run_succ ((step_input_idle hb hi).trans (hostStep_wr_len (s := { s with inputs := rest }) hb x v))
  | cons w ws ih =>
    rw [List.length_cons] at hcap
    have ho : o < s.cfg.cap x := by omega
    have hcap' : o + 4 + 4 * ws.length ≤ s.cfg.cap x := by omega
    refine (run_succ ((step_input_idle hb hi).trans (hostStep_wr_win w hb hc h4 ho))).trans ?_
    exact ih (s := State.okay { s with inputs := _ } (s.dev.writeWin x o w) 0#32) hc hb (by omega) hcap' rfl

/-! ## The bytes and the register of the slot -/

/-- A string stored with more bytes after it is read back. -/
theorem readBytes_writeBytes_append {m : Memory} (hm : m.wf) (a : Nat) (bs pad : Bytes) :
    (m.writeBytes a (bs ++ pad)).readBytes a bs.length = bs := by
  refine List.ext_getElem (Memory.length_readBytes _ _ _) fun j _ hj => ?_
  have hlen : j < (bs ++ pad).length := by rw [List.length_append]; omega
  rw [Memory.getElem_readBytes, Memory.read_writeBytes_inside hm a _ j hlen, List.getElem_append_left hj]

/-- The fields of the word LOAD writes to x_LEN, for every length that a 16-bit LEN holds. -/
theorem loadLenWord_fields {n : Nat} (hn : n < 2 ^ 16) :
    ((0x80000000#32 ||| BitVec.ofNat 32 n).extractLsb' 0 16).toNat = n ∧
    (0x80000000#32 ||| BitVec.ofNat 32 n).getLsbD 31 = true := by
  refine ⟨?_, by simp⟩
  have hconst : (0x80000000#32 : Word).extractLsb' 0 16 = 0#16 := by decide
  rw [BitVec.extractLsb'_or, hconst, BitVec.zero_or, BitVec.extractLsb'_toNat, BitVec.toNat_ofNat, Nat.shiftRight_zero]
  omega

/-- Settles O36: the run stores the padded string from the window's base on, and x_LEN takes its length. -/
theorem loadFillsTheSlot : Obligations.LoadFillsTheSlot := by
  intro s x bs rest hc hm hb hcap hi
  have hsize := Config.wf.cap_le hc x
  have hmod := Config.wf.cap_mod hc x
  have hlen : bs.length < 2 ^ 16 := by cases x <;> simp only [winSize] at hsize <;> omega
  obtain ⟨hLen, hPresent⟩ := loadLenWord_fields hlen
  have hrun := run_storeWords hc hb (o := 0) (ws := loadWords bs) rfl (by rw [length_loadWords]; omega)
    (hi.trans (List.append_assoc _ _ _))
  have hbytes := flatMap_le32Bytes_loadWords bs
  have htotal : ((loadWords bs).flatMap le32Bytes).length = (bs.length + 3) / 4 * 4 := by
    rw [hbytes, List.length_append, List.length_replicate]; omega
  refine ⟨_, by rw [progLoad, List.length_append, length_storeWords]; exact hrun, ?bytes, ?present, ?otherSlots, ?pad,
    ?outside, by cases x <;> rfl⟩
  case bytes =>
    simp only [loaded, Hkx.bytes, Hkx.len, Hkx.writeLen_slot_self, Hkx.writeLen_mem, hLen, hbytes, Nat.add_zero]
    exact readBytes_writeBytes_append hm _ _ _
  case present => exact (congrArg SlotReg.present (Hkx.writeLen_slot_self _ _ _)).trans hPresent
  case otherSlots =>
    intro y hy
    refine (Hkx.writeLen_slot_ne _ _ hy).trans ?_
    cases y <;> rfl
  case pad =>
    intro j hj hj'
    simp only [loaded, Hkx.writeLen_mem, Nat.add_zero]
    rw [Memory.read_writeBytes_inside hm _ _ j (htotal ▸ hj')]
    simp only [hbytes, List.getElem_append_right hj, List.getElem_replicate]
  case outside =>
    intro a ha
    simp only [loaded, Hkx.writeLen_mem, Nat.add_zero]
    exact Memory.read_writeBytes_outside _ _ _ _ (htotal.symm ▸ ha)

end Sys2Proof.Proofs
end

section
/-! # The issue of a command (R110 to R113, R205, R206(f)) -/

namespace Sys2Proof.Proofs
open Sys2Proof.Machine

/-- The issue of DERIVE and of DERIVE.DEF, the latter with chunk count 3 (R113, R137). -/
theorem exec_derive_idle {s : State} (hb : s.dev.busy = false) {i : Instr} {n : Byte}
    (hi : i = .derive n ∨ i = .deriveDef ∧ n = 3#8) : exec i s = .next (s.okay (s.dev.startDerive n) 0#32) := by
  rcases hi with rfl | ⟨rfl, rfl⟩
  · exact exec_idle hb (.derive n)
  · exact exec_idle hb .deriveDef

/-- Settles O18: the issue is `Start`, whose cleared OUT reads 0x00 in its range and leaves every other byte. -/
theorem issueStartsThePendingCommand : Obligations.IssueStartsThePendingCommand := fun s hb =>
  ⟨fun n => exec_idle hb (.verify n),
    fun _ n hi => ⟨s.okay (s.dev.startDerive n) 0#32, exec_derive_idle hb hi, rfl, Memory.read_clearOut s.dev.mem⟩⟩

/-- Settles O16: NOP while idle sets DONE, so `irq` is what IE enables. -/
theorem nopCompletesAtOnce : Obligations.NopCompletesAtOnce := by
  intro s hb
  have hnop : exec .nop s = .next (s.okay (s.dev.finishAtIssue errNone) 0#32) := exec_idle hb .nop
  refine ⟨hnop, hostStep_cmd_decoded s (decode_encode .nop), fun t ht => ?_⟩
  obtain rfl := Host.Outcome.next.inj (hnop.symm.trans ht)
  simp [Hkx.irq]

/-- Settles O17, by the CMD write of an ILLEGAL word while idle. -/
theorem illegalCompletesAtOnce : Obligations.IllegalCompletesAtOnce := fun _ _ _ hb hd =>
  (hostStep_cmd_illegal hb hd).trans (congrArg Host.Outcome.next (State.issueCmd_idle hb _))

/-- Settles O19: a command while busy is a bus error, and the CMD write of its word is the command. -/
theorem busyTurnsEveryCommandAway : Obligations.BusyTurnsEveryCommandAway := fun s i hb =>
  ⟨exec_busy hb i, hostStep_cmd_decoded s (decode_encode i)⟩

end Sys2Proof.Proofs
end

section
/-! # Progress and completion (R39, R121)

A step goes on from every state of the invariant.  While a command is pending it is the engine's, which completes the
command, or uses up a host turn of the schedule, which leaves the command pending; so the engine moves once the host
turns before its first are used up. -/

namespace Sys2Proof.Proofs
open Sys2Proof.Machine

/-- Settles O43: only the engine step can stop, and the invariant has a command pending when it is taken (R39). -/
theorem stepNeverStops : Obligations.StepNeverStops := by
  intro s hs
  rcases step_cases s with ⟨-, -, e⟩ | ⟨i, rest, ts, -, -, e⟩ | ⟨ts, hb, -, -, e⟩
  · exact ⟨s, e⟩
  · exact e ▸ inputStep_next _ i
  · exact e ▸ engineStep_next (hs.pending.mpr hb)

/-- A transaction leaves a pending command pending, and the queue and the schedule as they are. -/
theorem hostStep_stays_busy {s t : State} {x : Transaction} (hb : s.dev.busy = true) (h : hostStep s x = .next t) :
    t.dev.busy = true ∧ t.turns = s.turns ∧ t.inputs = s.inputs := by
  rcases hostStep_busy hb h with rfl | ⟨v, rfl⟩ <;> exact ⟨hb, rfl, rfl⟩

/-- A turn of the outside that is no reset leaves a pending command pending; it takes no turn of the schedule, and puts at
most the input itself back in the queue. -/
theorem inputStep_stays_busy {s t : State} {i : Input} (hb : s.dev.busy = true) (hi : i ≠ .reset)
    (h : inputStep s i = .next t) : t.dev.busy = true ∧ t.turns = s.turns ∧ t.inputs ⊆ i :: s.inputs := by
  rcases inputStep_cases s i with ⟨x, -, e⟩ | ⟨hr, -⟩ | ⟨_, _, _, u, -, hu, ⟨-, e⟩ | ⟨-, e⟩⟩
  · obtain ⟨hbusy, hturns, hinputs⟩ := hostStep_stays_busy hb (e.symm.trans h)
    exact ⟨hbusy, hturns, hinputs ▸ List.subset_cons_self i _⟩
  · exact absurd hr hi
  · obtain ⟨hbusy, hturns, hinputs⟩ := hostStep_stays_busy hb hu
    obtain rfl := Host.Outcome.next.inj (e.symm.trans h)
    exact ⟨hbusy, hturns, hinputs ▸ List.subset_cons_self i _⟩
  · obtain ⟨hbusy, hturns, hinputs⟩ := hostStep_stays_busy hb hu
    obtain rfl := Host.Outcome.next.inj (e.symm.trans h)
    exact ⟨hbusy, hturns, hinputs ▸ List.Subset.refl _⟩

/-- A step while a command is pending and no reset is among the inputs: the command is completed, or a host turn of the
schedule is used up and the command is pending still. -/
theorem step_completes_or_uses_hostTurn {s t : State} (hb : s.dev.busy = true) (hr : Input.reset ∉ s.inputs)
    (h : step s = .next t) :
    (t.dev.busy = false ∧ t.dev.done = true ∧ t.dev.pend = .none) ∨
    (s.turns = .host :: t.turns ∧ t.dev.busy = true ∧ Input.reset ∉ t.inputs) := by
  rcases step_cases s with ⟨hidle, -⟩ | ⟨i, rest, ts, hi, ⟨hidle, -⟩ | ⟨-, hts⟩, e⟩ | ⟨ts, -, -, -, e⟩
  · rw [hb] at hidle; cases hidle
  · rw [hb] at hidle; cases hidle
  · rw [hi] at hr
    obtain ⟨hbusy, hturns, hinputs⟩ :=
      inputStep_stays_busy (s := { s with inputs := rest, turns := ts }) hb
        (List.ne_of_not_mem_cons hr).symm (e.symm.trans h)
    exact .inr ⟨hturns ▸ hts, hbusy, fun hmem => hr (hinputs hmem)⟩
  · obtain ⟨hbusy, hdone, hpend, -⟩ := engineStep_done (e.symm.trans h)
    exact .inl ⟨hbusy, hdone, hpend⟩

/-- Settles O44, by induction on the length of the schedule: each step completes the command or uses up a leading host
turn. -/
theorem pendingCommandCompletes : Obligations.PendingCommandCompletes := by
  intro s hs hb hr
  induction hn : s.turns.length using Nat.strong_induction_on generalizing s with
  | _ n ih =>
    obtain ⟨t, ht⟩ := stepNeverStops s hs
    rcases step_completes_or_uses_hostTurn hb hr ht with hdone | ⟨hhost, hbusy, hreset⟩
    · exact ⟨1, t, by omega, run_succ ht, hdone⟩
    · have hshorter : t.turns.length < n := by rw [← hn, hhost]; exact Nat.lt_succ_self _
      obtain ⟨k, u, hk, hrun, hdone⟩ :=
        ih _ hshorter t (everyStepKeepsTheInvariant s t hs ht) hbusy hreset rfl
      exact ⟨k + 1, u, by simpa [hhost] using hk, (run_succ ht).trans hrun, hdone⟩

end Sys2Proof.Proofs
end

section
/-! # DERIVE (R130 to R140)

`DeriveFn` is the head of the expansion; the engine step of a DERIVE ends with an error or stores that head in OUT, and a
byte of OUT is then a chunk's byte or what it was. -/

namespace Sys2Proof.Proofs
open Sys2Proof.Machine

/-! ## The derivation function -/

/-- What round 1 hashes of T: all but the 32 bytes at its head (R138). -/
theorem drop_infoBlock {prev : Bytes} (hprev : prev.length = 32) (info : Bytes) (counter : Byte) :
    (infoBlock prev info counter).drop 32 = info ++ [counter] := by
  rw [infoBlock, List.append_assoc, ← hprev, List.drop_left]

/-- Settles O30: the rounds of `DeriveFn` are those of the expansion, round 1 by what it leaves out of T. -/
theorem deriveFnIsTheExpansion : Obligations.DeriveFnIsTheExpansion := by
  intro h input salt info n h1 h3
  have hround1 := drop_infoBlock (List.length_replicate (n := 32) (a := 0#8)) info 0x01#8
  have hn : n = 1 ∨ n = 2 ∨ n = 3 := by omega
  rcases hn with rfl | rfl | rfl <;> simp only [deriveFn, hround1] <;> rfl

/-- Settles O31: the first chunks of the expansion do not depend on how many are asked for. -/
theorem fewerChunksAreAPrefix : Obligations.FewerChunksAreAPrefix := by
  intro h input salt info m n h1 hmn h3
  rw [deriveFnIsTheExpansion h input salt info m h1 (hmn.trans h3),
    deriveFnIsTheExpansion h input salt info n (h1.trans hmn) h3, ← List.map_take, List.take_range, Nat.min_eq_left hmn]

/-! ## The chunks in OUT (R135) -/

/-- Chunk `k` of the expansion of a device's operands: A the input, B the salt, C the info (R130, R134). -/
def operandChunk (cfg : Config) (d : Hkx) (k : Nat) : Bytes32 :=
  expandChunk (hmac cfg.hmac) (hmac cfg.hmac (d.bytes .b) (d.bytes .a)).toList (d.bytes .c) k

/-- The device after a DERIVE that passes its checks (R135, R136). -/
def derived (cfg : Config) (d : Hkx) (n : Byte) : Hkx :=
  (d.storeChunks ((List.range n.toNat).map (operandChunk cfg d)) n).complete errNone argNone

section
variable {cfg : Config} {d : Hkx} {n : Byte}

/-- The issue of a DERIVE leaves the chunks to be derived as they are (R113). -/
theorem operandChunk_startDerive (k : Nat) : operandChunk cfg (d.startDerive n) k = operandChunk cfg d k := by
  simp only [operandChunk, Hkx.bytes_startDerive]

theorem read_derived_chunk (hm : d.mem.wf) {k j : Nat} (hk : k < n.toNat) (hj : j < 32) :
    (derived cfg d n).mem.read (outBase + 32 * k + j) = (operandChunk cfg d k)[j] := by
  obtain ⟨hlt, hbyte⟩ := chunks_getElem ((List.range n.toNat).map (operandChunk cfg d)) (k := k) (by simpa using hk) hj
  rw [derived, Hkx.complete_mem, Hkx.storeChunks_mem, Nat.add_assoc, Memory.read_writeBytes_inside hm _ _ _ hlt, hbyte]
  simp

theorem read_derived_outside {a : Nat} (ha : ¬ (outBase ≤ a ∧ a < outBase + 32 * n.toNat)) :
    (derived cfg d n).mem.read a = d.mem.read a := by
  refine Memory.read_writeBytes_outside _ _ _ _ ?_
  rw [chunks_length, List.length_map, List.length_range]
  omega

/-- `n` chunks lie within OUT. -/
theorem read_derived_outside_out (h3 : n.toNat ≤ 3) {a : Nat} (ha : ¬ inOut a) :
    (derived cfg d n).mem.read a = d.mem.read a :=
  read_derived_outside fun ⟨hl, hr⟩ => ha ⟨hl, by simp only [outSize]; omega⟩

/-- Zeros past the chunks: what was zero before (R135). -/
theorem read_derived_tail (hzero : ∀ a, inOut a → d.mem.read a = 0#8) {a : Nat} (hl : outBase + 32 * n.toNat ≤ a)
    (hr : a < outBase + outSize) : (derived cfg d n).mem.read a = 0#8 :=
  (read_derived_outside (by omega)).trans (hzero a ⟨by omega, hr⟩)

/-! ## The engine step of a DERIVE -/

theorem engineDerive_of_usable (hu : d.operandsUsable cfg) (hb : d.len .b = 32) (h1 : 1 ≤ n.toNat) (h3 : n.toNat ≤ 3) :
    engineDerive cfg d n = derived cfg d n := by
  have hguard := Hkx.guard_eq_none.mpr hu
  rcases engineDerive_cases cfg d n with ⟨r, hr, -⟩ | ⟨-, hlen, -⟩ | ⟨-, -, hrange, -⟩ | ⟨-, -, -, -, e⟩
  · rw [hguard] at hr; cases hr
  · exact absurd hb hlen
  · omega
  · rw [e, deriveFnIsTheExpansion _ _ _ _ _ h1 h3]; rfl

theorem engineStep_derive_of_usable {s : State} (hp : s.dev.pend = .derive n) (hu : s.dev.operandsUsable s.cfg)
    (hb : s.dev.len .b = 32) (h1 : 1 ≤ n.toNat) (h3 : n.toNat ≤ 3) :
    engineStep s = .next { s with dev := derived s.cfg s.dev n } := by
  rw [engineStep_derive hp, engineDerive_of_usable hu hb h1 h3]

/-- The issue of a DERIVE leaves the operands usable (R113). -/
theorem operandsUsable_startDerive (hu : d.operandsUsable cfg) : (d.startDerive n).operandsUsable cfg := by
  rwa [← Hkx.guard_eq_none, Hkx.startDerive_guard, Hkx.guard_eq_none]

/-- The engine step of a DERIVE ends with an error of R200, OUT and OUT_COUNT being as they were, or with its chunks. -/
theorem engineDerive_fails_or_derives (cfg : Config) (d : Hkx) (n : Byte) :
    (∃ code arg, code ≠ errNone ∧ engineDerive cfg d n = d.complete code arg) ∨
    (n.toNat ≤ 3 ∧ engineDerive cfg d n = derived cfg d n) := by
  rcases engineDerive_cases cfg d n with ⟨r, hr, e⟩ | ⟨-, -, e⟩ | ⟨-, -, -, e⟩ | ⟨hguard, hb, h1, h3, -⟩
  · obtain ⟨x, rfl | rfl⟩ := Hkx.guard_listed hr
    · exact .inl ⟨errType, argId x, by decide, e⟩
    · exact .inl ⟨errCapacity, argId x, by decide, e⟩
  · exact .inl ⟨_, _, by decide, e⟩
  · exact .inl ⟨_, _, by decide, e⟩
  · exact .inr ⟨h3, engineDerive_of_usable (Hkx.guard_eq_none.mp hguard) hb h1 h3⟩

/-- While a DERIVE is pending OUT is all zero (R32, R38). -/
theorem out_zero_of_derive_pending (h : d.Inv cfg) (hp : d.pend = .derive n) {a : Nat} (ha : inOut a) :
    d.mem.read a = 0#8 := by
  obtain ⟨hl, hr⟩ := ha
  have htail := h.outTail (a - outBase) (by simp [h.noChunksPending n hp]) (by omega)
  rwa [Nat.add_sub_cancel' hl] at htail

end

/-- Settles O22: the engine step ends in `derived`, whose memory is read byte by byte. -/
theorem deriveStoresItsChunks : Obligations.DeriveStoresItsChunks := by
  intro s n hm hp hu hb h1 h3
  exact ⟨_, _, _, _, _, rfl, rfl, rfl, rfl, engineStep_derive_of_usable hp hu hb h1 h3, rfl,
    fun j hj => read_derived_chunk hm (k := 0) h1 hj, fun h2 j hj => read_derived_chunk hm (k := 1) h2 hj,
    fun h3 j hj => read_derived_chunk hm (k := 2) h3 hj, fun a ha => read_derived_outside ha⟩

/-- Settles O23: an error leaves OUT and OUT_COUNT at the zeros of the pending DERIVE, and success adds the chunks. -/
theorem deriveOutputIsWholeOrZero : Obligations.DeriveOutputIsWholeOrZero := by
  intro s n hs hp
  have hzero : ∀ a, inOut a → s.dev.mem.read a = 0#8 := fun a => out_zero_of_derive_pending hs hp
  refine ⟨_, engineStep_derive hp, ?_⟩
  rcases engineDerive_fails_or_derives s.cfg s.dev n with ⟨code, arg, hcode, e⟩ | ⟨h3, e⟩ <;> simp only [e]
  · exact ⟨fun h => absurd h hcode, fun _ => ⟨hs.noChunksPending n hp, fun a hl hr => hzero a ⟨hl, hr⟩⟩⟩
  · have hcount : (n.setWidth 2).toNat = n.toNat := by rw [BitVec.toNat_setWidth]; omega
    exact ⟨fun _ => ⟨hcount, fun k hk j hj => read_derived_chunk hs.canonical hk hj,
      fun a hl hr => read_derived_tail hzero hl hr⟩, fun h => absurd rfl h⟩

/-- Settles O24: the issue clears OUT and keeps the operands, and the engine step stores their chunks in it. -/
theorem deriveCompletesWithItsChunks : Obligations.DeriveCompletesWithItsChunks := by
  intro s i n hm hbusy hu hb h1 h3 hi
  have hstep := engineStep_derive_of_usable (s := s.okay (s.dev.startDerive n) 0#32) rfl
    (operandsUsable_startDerive hu) ((congrFun (Hkx.startDerive_len s.dev n) .b).trans hb) h1 h3
  refine ⟨_, _, exec_derive_idle hbusy hi, rfl, rfl, hstep, rfl, fun k hk j hj => ?chunks, fun a hl hr => ?tail,
    fun a ha => ?outside⟩
  case chunks =>
    exact (read_derived_chunk (Memory.wf_clearOut hm) hk hj).trans (congrArg (·[j]) (operandChunk_startDerive k))
  case tail => exact read_derived_tail (fun _ => Memory.read_clearOut_inside s.dev.mem) hl hr
  case outside => exact (read_derived_outside_out h3 ha).trans (Memory.read_clearOut_outside s.dev.mem ha)

end Sys2Proof.Proofs
end

section
/-! # VERIFY (R150 to R159)

The engine step of a VERIFY ends with the guard's error or the result of `VerifyFn`; that result is a chain of tests on the
operands, `CTEQ` being equality, and each rule about it is a branch of the chain. -/

namespace Sys2Proof.Proofs
open Sys2Proof.Machine

/-! ## The result -/

/-- The result of a VERIFY that passes the guard, by the device's operands: A the data, B the key, C the mac (R150). -/
def verifyResult (cfg : Config) (d : Hkx) (n : Byte) : BitVec 4 × BitVec 3 :=
  verifyFn (hmac cfg.hmac) (d.bytes .a) (d.bytes .b) (d.bytes .c) n.toNat

section
variable {cfg : Config} {d : Hkx} {n : Byte}

/-- R151: the truncated tag has `n` bytes just when `n` is at most the 32 of the whole one, and `CTEQ` is equality. -/
theorem verifyResult_eq :
    verifyResult cfg d n =
      if d.len .c ≠ n.toNat then (errLength, argId .c)
      else if n.toNat > 32 then (errLength, argField)
      else if d.bytes .c ≠ (hmac cfg.hmac (d.bytes .b) (d.bytes .a)).toList.take n.toNat then (errAuth, argId .c)
      else (errNone, argNone) := by
  have htag : ((hmac cfg.hmac (d.bytes .b) (d.bytes .a)).toList.take (min n.toNat 32)).length = min n.toNat 32 := by
    simp
  simp only [verifyResult, verifyFn, htag, Hkx.bytes_length]
  by_cases hc : d.len .c = n.toNat
  · by_cases hn : n.toNat ≤ 32
    · rw [Nat.min_eq_left hn] at htag ⊢
      have hct := ctEq_iff ((Hkx.bytes_length d .c).trans (hc.trans htag.symm))
      simp [hc, hn, ← hct]
    · have hshort : min n.toNat 32 ≠ n.toNat := by omega
      simp [hc, hshort, Nat.lt_of_not_le hn]
  · simp [hc]

theorem verifyResult_of_len_ne (hc : d.len .c ≠ n.toNat) : verifyResult cfg d n = (errLength, argId .c) := by
  rw [verifyResult_eq, if_pos hc]

theorem verifyResult_of_length_over (hc : d.len .c = n.toNat) (hn : 32 < n.toNat) :
    verifyResult cfg d n = (errLength, argField) := by
  rw [verifyResult_eq, if_neg (not_not_intro hc), if_pos hn]

theorem verifyResult_of_mac_ne (hc : d.len .c = n.toNat) (hn : n.toNat ≤ 32)
    (hne : d.bytes .c ≠ (hmac cfg.hmac (d.bytes .b) (d.bytes .a)).toList.take n.toNat) :
    verifyResult cfg d n = (errAuth, argId .c) := by
  rw [verifyResult_eq, if_neg (not_not_intro hc), if_neg (Nat.not_lt_of_le hn), if_pos hne]

/-- A mac that is the truncated tag has its length, so that the length tests pass. -/
theorem verifyResult_of_mac_eq (hn : n.toNat ≤ 32)
    (heq : d.bytes .c = (hmac cfg.hmac (d.bytes .b) (d.bytes .a)).toList.take n.toNat) :
    verifyResult cfg d n = (errNone, argNone) := by
  have hc : d.len .c = n.toNat := by rw [← Hkx.bytes_length, heq]; simpa using hn
  rw [verifyResult_eq, if_neg (not_not_intro hc), if_neg (Nat.not_lt_of_le hn), if_neg (not_not_intro heq)]

/-- The issue of a VERIFY leaves the operands as they are (R113). -/
theorem bytes_startVerify : (d.startVerify n).bytes = d.bytes := by
  funext x
  simp only [Hkx.bytes, Hkx.startVerify_len, Hkx.startVerify_mem]

/-! ## The engine step of a VERIFY (R157) -/

theorem engineVerify_eq_complete (cfg : Config) (d : Hkx) (n : Byte) :
    engineVerify cfg d n =
      d.complete (afterGuard cfg d (verifyResult cfg d n)).1 (afterGuard cfg d (verifyResult cfg d n)).2 := by
  rw [afterGuard_eq]
  rcases engineVerify_cases cfg d n with ⟨r, hguard, e⟩ | ⟨hguard, r, rfl, e⟩ <;> rw [e, hguard] <;> rfl

theorem afterGuard_of_usable (hu : d.operandsUsable cfg) (r : BitVec 4 × BitVec 3) : afterGuard cfg d r = r := by
  rw [afterGuard_eq, Hkx.guard_eq_none.mpr hu, Option.getD_none]

theorem engineStep_verify_of_usable {s : State} (hp : s.dev.pend = .verify n) (hu : s.dev.operandsUsable s.cfg)
    {code : BitVec 4} {arg : BitVec 3} (hr : verifyResult s.cfg s.dev n = (code, arg)) :
    engineStep s = .next { s with dev := s.dev.complete code arg } := by
  rw [engineStep_verify hp, engineVerify_eq_complete, afterGuard_of_usable hu, hr]

end

/-- Settles O25: the issue keeps what the guard and the result look at, and the engine step is `Complete` of them. -/
theorem verifyCompletesWithItsResult : Obligations.VerifyCompletesWithItsResult := by
  intro s n hb
  have hguard (r) : afterGuard s.cfg (s.dev.startVerify n) r = afterGuard s.cfg s.dev r := by
    rw [afterGuard_eq, afterGuard_eq, Hkx.startVerify_guard]
  have hresult : verifyResult s.cfg (s.dev.startVerify n) n = verifyResult s.cfg s.dev n := by
    simp only [verifyResult, bytes_startVerify]
  refine ⟨_, _, exec_idle hb (.verify n), rfl, rfl, engineStep_verify rfl, ?frame, ?result⟩
  case frame => simp only [engineVerify_eq_complete]; rfl
  case result =>
    simp only [engineVerify_eq_complete, State.okay_dev, State.okay_cfg, hguard, hresult, verifyResult_eq]
    rfl

/-- Flipping one bit of one byte changes a byte string. -/
theorem set_xor_twoPow_ne (tag : Bytes) {i b : Nat} (hi : i < tag.length) (hb : b < 8) :
    tag.set i (tag[i] ^^^ BitVec.twoPow 8 b) ≠ tag := by
  intro h
  have hlen : i < (tag.set i (tag[i] ^^^ BitVec.twoPow 8 b)).length := by rwa [List.length_set]
  have hbyte : tag[i] ^^^ BitVec.twoPow 8 b = tag[i] :=
    (List.getElem_set_self hlen).symm.trans (List.getElem_of_eq h hlen)
  have hbit := congrArg (·.getLsbD b) hbyte
  simp [hb] at hbit

/-- Settles O26: the tag gives equality, and a flipped bit keeps the tag's length and changes its bytes. -/
theorem verifyAcceptsTheTagAndNoFlippedBit : Obligations.VerifyAcceptsTheTagAndNoFlippedBit := by
  intro s n hp hu _ hn
  refine ⟨fun htag => ⟨_, engineStep_verify_of_usable hp hu (verifyResult_of_mac_eq hn htag), rfl, rfl⟩, ?flipped⟩
  case flipped =>
    rintro tag i b hi hb rfl hflip
    have hc : s.dev.len .c = n.toNat := by rw [← Hkx.bytes_length, hflip]; simpa using hn
    have hne := set_xor_twoPow_ne _ hi hb
    exact ⟨_, engineStep_verify_of_usable hp hu (verifyResult_of_mac_ne hc hn (hflip ▸ hne)), rfl, rfl⟩

/-- Settles O27: an empty mac is the first 0 bytes of the tag, whatever the tag. -/
theorem verifyOfLengthZero : Obligations.VerifyOfLengthZero := by
  intro s hp hu
  by_cases hc : s.dev.len .c = 0
  · have hempty : s.dev.bytes .c = [] := List.eq_nil_of_length_eq_zero ((Hkx.bytes_length _ _).trans hc)
    exact ⟨_, engineStep_verify_of_usable hp hu (verifyResult_of_mac_eq (by decide) hempty),
      fun _ => ⟨rfl, rfl⟩, fun h => absurd hc h⟩
  · exact ⟨_, engineStep_verify_of_usable hp hu (verifyResult_of_len_ne hc), fun h => absurd h hc, fun _ => ⟨rfl, rfl⟩⟩

/-- Settles O28: one of the two length tests fails, the second when LEN(C) is the length. -/
theorem verifyOfLengthOverThirtyTwo : Obligations.VerifyOfLengthOverThirtyTwo := by
  intro s n hp hu hn
  by_cases hc : s.dev.len .c = n.toNat
  · exact ⟨_, engineStep_verify_of_usable hp hu (verifyResult_of_length_over hc hn), rfl, fun _ => rfl⟩
  · exact ⟨_, engineStep_verify_of_usable hp hu (verifyResult_of_len_ne hc), rfl, fun h => absurd h hc⟩

end Sys2Proof.Proofs
end

section
/-! # Errors and the interrupt (R200 to R210)

A transaction's response by the causes of R206; the pair (ERR, ERR_ARG) with which each engine step ends, what it leaves
when that pair is an error, and how long it is held; and `irq` after each thing that can move it. -/

namespace Sys2Proof.Proofs
open Sys2Proof.Machine

/-! ## The response to a transaction (R91, R206) -/

/-- A write reads nothing: its rdata is 0, whether it is a bus error or OKAY. -/
theorem hostStep_write_rdata {s t : State} {x : Transaction} (hk : x.kind = .write) (h : hostStep s x = .next t) :
    t.lastRdata = 0#32 := by
  rcases hostStep_cases s x with e | ⟨v, -, hr⟩ |
    ⟨-, -, -, -, ⟨-, e⟩ | ⟨-, e⟩ | ⟨-, e⟩ | ⟨y, -, e⟩ | ⟨y, o, -, -, e⟩⟩
  case inr.inl => rw [hk] at hr; cases hr
  all_goals
    obtain rfl := Host.Outcome.next.inj (e.symm.trans h)
    rfl

/-- Settles O6: a transaction with a cause is a bus error, and one without is OKAY. -/
theorem busErrorsAreExactlyTheListedCauses : Obligations.BusErrorsAreExactlyTheListedCauses := by
  refine fun s x => ⟨hostStep_of_busErrorCause, fun hn => ?_⟩
  obtain ⟨d, v, h⟩ := hostStep_of_not_busErrorCause hn
  exact ⟨s.okay d v, v, h, rfl, fun hk => hostStep_write_rdata hk h⟩

/-! ## The error of a command (R201, R202) -/

/-- The result of an engine step of a DERIVE: the guard's, then the salt length's, then the chunk count's (R136). -/
theorem engineDerive_result (cfg : Config) (d : Hkx) (n : Byte) :
    ((engineDerive cfg d n).err, (engineDerive cfg d n).errArg) = afterGuard cfg d
      (if d.len .b ≠ 32 then (errLength, argId .b)
       else if n.toNat < 1 ∨ n.toNat > 3 then (errRange, argField)
       else (errNone, argNone)) := by
  rw [afterGuard_eq]
  rcases engineDerive_cases cfg d n with ⟨r, hg, e⟩ | ⟨hg, hb, e⟩ | ⟨hg, hb, hn, e⟩ | ⟨hg, hb, h1, h3, e⟩ <;>
    rw [hg, e]
  · rfl
  · rw [if_pos hb]; rfl
  · rw [if_neg (not_not_intro hb), if_pos hn]; rfl
  · rw [if_neg (not_not_intro hb), if_neg (by omega)]; rfl

/-- The result of an engine step of a VERIFY: the guard's, then `VerifyFn`'s (R157). -/
theorem engineVerify_result (cfg : Config) (d : Hkx) (n : Byte) :
    ((engineVerify cfg d n).err, (engineVerify cfg d n).errArg) = afterGuard cfg d (verifyResult cfg d n) := by
  rw [engineVerify_eq_complete]
  rfl

/-- Settles O20, by the result of the issue of an ILLEGAL word and of the engine step of each command. -/
theorem commandReportsTheFirstError : Obligations.CommandReportsTheFirstError := by
  refine ⟨fun s t w why hb hd h => ?illegal, fun s n hp => ?derive, fun s n hp => ?verify⟩
  case illegal =>
    obtain rfl := Host.Outcome.next.inj ((illegalCompletesAtOnce s w why hb hd).symm.trans h)
    rfl
  case derive =>
    obtain ⟨hbusy, hdone, hpend, -⟩ := engineStep_done (engineStep_derive hp)
    exact ⟨_, engineStep_derive hp, hbusy, hdone, hpend, engineDerive_result s.cfg s.dev n⟩
  case verify =>
    obtain ⟨hbusy, hdone, hpend, -⟩ := engineStep_done (engineStep_verify hp)
    refine ⟨_, engineStep_verify hp, hbusy, hdone, hpend, ?_⟩
    exact (engineVerify_result s.cfg s.dev n).trans (congrArg _ verifyResult_eq)

/-- An engine step is `Complete` and no more, but for the DERIVE that stores its chunks, which ends without an error. -/
theorem engineStep_completes_or_derives {s t : State} (h : engineStep s = .next t) :
    (∃ code arg, t = { s with dev := s.dev.complete code arg }) ∨
    ∃ n, t = { s with dev := derived s.cfg s.dev n } := by
  rcases engineStep_cases h with ⟨n, -, rfl⟩ | ⟨n, -, rfl⟩
  · rcases engineDerive_fails_or_derives s.cfg s.dev n with ⟨code, arg, -, e⟩ | ⟨-, e⟩ <;> rw [e]
    · exact .inl ⟨code, arg, rfl⟩
    · exact .inr ⟨n, rfl⟩
  · rw [engineVerify_eq_complete]
    exact .inl ⟨_, _, rfl⟩

/-- Settles O21: an engine step with an error stored no chunks, and is `Complete`. -/
theorem failedCommandChangesNothingElse : Obligations.FailedCommandChangesNothingElse := by
  intro s t h herr
  rcases engineStep_completes_or_derives h with ⟨code, arg, rfl⟩ | ⟨n, rfl⟩
  · rfl
  · exact absurd rfl herr

/-- Settles O49, by what a step can do to the state of the command. -/
theorem errorIsHeldUntilTheNextCommand : Obligations.ErrorIsHeldUntilTheNextCommand := by
  intro s t h hchange
  rcases step_command_cases h with k | ⟨rest, hi, -⟩ | he | ⟨hb, w, rest, hi, -⟩
  · rcases hchange with herr | harg
    · exact absurd k.err herr
    · exact absurd k.errArg harg
  · exact .inl ⟨rest, hi⟩
  · exact .inr (.inr he)
  · exact .inr (.inl ⟨w, rest, hi, hb⟩)

/-! ## The interrupt (R210) -/

theorem irq_of_done {d : Hkx} (h : d.done = true) : d.irq = d.ie := by
  rw [Hkx.irq, h, Bool.true_and]

theorem irq_of_not_done {d : Hkx} (h : d.done = false) : d.irq = false := by
  rw [Hkx.irq, h, Bool.false_and]

/-- A command that completes at issue leaves `irq` as IE, one that starts clears it. -/
theorem issued_irq (d : Hkx) (w : Word) :
    ((decode w = .ok .nop ∨ ∃ why, decode w = .error why) → (d.issued w).irq = d.ie) ∧
    ∀ i, decode w = .ok i → i ≠ .nop → (d.issued w).irq = false := by
  rcases issued_completes_or_starts d w with ⟨-, hdone, -⟩ | ⟨⟨i, hd, hi⟩, hdone, -⟩
  · refine ⟨fun _ => (irq_of_done hdone).trans (issued_ie d w), fun i hd hi => ?_⟩
    exact absurd ((issued_done_iff d w).mp hdone i hd) hi
  · refine ⟨fun hcomp => ?_, fun _ _ _ => irq_of_not_done hdone⟩
    rcases hcomp with hnop | ⟨why, herror⟩
    · exact absurd (Except.ok.inj (hd.symm.trans hnop)) hi
    · cases hd.symm.trans herror

/-- Settles O53, by DONE and IE after a completion, an issue, each register write and a bus error. -/
theorem interruptFollowsDoneAndEnable : Obligations.InterruptFollowsDoneAndEnable := by
  refine ⟨fun s => Bool.and_eq_true_iff, fun s t h => ?complete,
    fun s w hb => ⟨_, hostStep_cmd hb w, issued_irq s.dev w⟩,
    fun s w hb hw => ⟨_, hostStep_wr_status hb w, irq_of_not_done ?status⟩,
    fun s w hb => ⟨_, hostStep_wr_irqEn hb w, rfl⟩, fun s t x hx h => ?busError⟩
  case complete =>
    obtain ⟨-, hdone, -, hie, -⟩ := engineStep_done h
    exact (irq_of_done hdone).trans hie
  case status => simp [hw]
  case busError =>
    obtain rfl := Host.Outcome.next.inj ((hostStep_of_busErrorCause hx).symm.trans h)
    rfl

end Sys2Proof.Proofs
end

section
/-! # The result of a command by its operands (R35, R81, R122, R247)

Devices that agree on the operands take the same branch of the engine step, and each ends in the same `Complete`, with the
same chunks stored before it where there are any. -/

namespace Sys2Proof.Proofs
open Sys2Proof.Machine

/-- The devices `d` and `e` agree on PRESENT, LEN and every window byte below LEN and the capacity (R35, R81). -/
structure SameOperands (cfg : Config) (d e : Hkx) : Prop where
  slot : d.slot = e.slot
  byte : ∀ x j, j < d.len x → j < cfg.cap x → d.mem.read (winBase x + j) = e.mem.read (winBase x + j)

/-- The devices `d` and `e` end their commands in the same way (R119, R135), the second pair being what they end in. -/
inductive EndAlike (d e : Hkx) : Hkx → Hkx → Prop
  | complete (code : BitVec 4) (arg : BitVec 3) : EndAlike d e (d.complete code arg) (e.complete code arg)
  | chunks (cs : List Bytes32) (n : Byte) : EndAlike d e
      ((d.storeChunks cs n).complete errNone argNone) ((e.storeChunks cs n).complete errNone argNone)

section
variable {cfg : Config} {d e d' e' : Hkx}

/-! ## The two ends -/

theorem SameOperands.len (h : SameOperands cfg d e) : d.len = e.len := by
  funext x
  simp only [Hkx.len, h.slot]

/-- Past the guard no slot is longer than its capacity, so that every byte of the operands is one agreed on. -/
theorem SameOperands.bytes (h : SameOperands cfg d e) (hguard : d.guard cfg = none) : d.bytes = e.bytes := by
  funext x
  have hcap : d.len x ≤ cfg.cap x := (Hkx.guard_eq_none.mp hguard x).2
  simp only [Hkx.bytes, ← h.len]
  exact Memory.readBytes_congr fun j hj => h.byte x j hj (hj.trans_le hcap)

theorem engineDerive_endAlike (h : SameOperands cfg d e) (n : Byte) :
    EndAlike d e (engineDerive cfg d n) (engineDerive cfg e n) := by
  simp only [engineDerive, ← Hkx.guard_congr h.slot, ← h.len]
  cases hguard : d.guard cfg with
  | some r => exact .complete r.1 r.2
  | none =>
    simp only [← h.bytes hguard]
    split
    · exact .complete _ _
    · split
      · exact .complete _ _
      · exact .chunks _ n

theorem engineVerify_endAlike (h : SameOperands cfg d e) (n : Byte) :
    EndAlike d e (engineVerify cfg d n) (engineVerify cfg e n) := by
  simp only [engineVerify, ← Hkx.guard_congr h.slot]
  cases hguard : d.guard cfg with
  | some r => exact .complete r.1 r.2
  | none =>
    simp only [← h.bytes hguard]
    exact .complete _ _

theorem engineStep_endAlike {s s' t t' : State} (hcfg : s.cfg = s'.cfg) (hpend : s.dev.pend = s'.dev.pend)
    (h : SameOperands s.cfg s.dev s'.dev) (ht : engineStep s = .next t) (ht' : engineStep s' = .next t') :
    EndAlike s.dev s'.dev t.dev t'.dev := by
  rcases engineStep_cases ht with ⟨n, hp, rfl⟩ | ⟨n, hp, rfl⟩
  · obtain rfl := Host.Outcome.next.inj ((engineStep_derive (hpend ▸ hp)).symm.trans ht')
    exact hcfg ▸ engineDerive_endAlike h n
  · obtain rfl := Host.Outcome.next.inj ((engineStep_verify (hpend ▸ hp)).symm.trans ht')
    exact hcfg ▸ engineVerify_endAlike h n

/-! ## What the ends have in common -/

theorem EndAlike.result (h : EndAlike d e d' e') :
    d'.err = e'.err ∧ d'.errArg = e'.errArg ∧ d'.busy = e'.busy ∧ d'.done = e'.done ∧ d'.pend = e'.pend := by
  cases h <;> exact ⟨rfl, rfl, rfl, rfl, rfl⟩

/-- A byte read after a string was stored is one of the string's, or the byte that was there. -/
theorem read_writeBytes_congr {m m' : Memory} (hm : m.wf) (hm' : m'.wf) (a : Nat) (bs : Bytes) {b : Nat}
    (h : m.read b = m'.read b) : (m.writeBytes a bs).read b = (m'.writeBytes a bs).read b := by
  by_cases hb : b < a ∨ a + bs.length ≤ b
  · rw [Memory.read_writeBytes_outside _ _ _ _ hb, Memory.read_writeBytes_outside _ _ _ _ hb, h]
  · obtain ⟨j, rfl⟩ : ∃ j, b = a + j := ⟨b - a, by omega⟩
    rw [Memory.read_writeBytes_inside hm _ _ _ (by omega), Memory.read_writeBytes_inside hm' _ _ _ (by omega)]

/-- The chunks are stored in an OUT that is all zero in both, and OUT_COUNT is 0 in both, where DERIVE fails (R32, R38). -/
theorem EndAlike.out_of_derive_pending {cfg' : Config} {n : Byte} (h : EndAlike d e d' e') (hd : d.Inv cfg)
    (he : e.Inv cfg') (hpd : d.pend = .derive n) (hpe : e.pend = .derive n) :
    d'.outCount = e'.outCount ∧ ∀ a, inOut a → d'.mem.read a = e'.mem.read a := by
  have hout {a : Nat} (ha : inOut a) : d.mem.read a = e.mem.read a :=
    (out_zero_of_derive_pending hd hpd ha).trans (out_zero_of_derive_pending he hpe ha).symm
  cases h with
  | complete code arg =>
    exact ⟨(hd.noChunksPending n hpd).trans (he.noChunksPending n hpe).symm, fun a ha => hout ha⟩
  | chunks cs k =>
    exact ⟨rfl, fun a ha => read_writeBytes_congr hd.canonical he.canonical outBase _ (hout ha)⟩

end

/-- Settles O32: the two engine steps end alike, and a pending DERIVE found OUT and OUT_COUNT zero in both. -/
theorem resultDependsOnTheOperandsAlone : Obligations.ResultDependsOnTheOperandsAlone := by
  intro s s' t t' hs hs' hcfg hpend hslot hbyte ht ht'
  have hend := engineStep_endAlike hcfg hpend ⟨hslot, hbyte⟩ ht ht'
  obtain ⟨herr, harg, hbusy, hdone, hpend'⟩ := hend.result
  exact ⟨herr, harg, hbusy, hdone, hpend',
    fun n hp => hend.out_of_derive_pending hs hs' hp (hpend.symm.trans hp)⟩

end Sys2Proof.Proofs
end

section
/-! # Reset (R240 to R242) and reads while a command is pending (R245) -/

namespace Sys2Proof.Proofs
open Sys2Proof.Machine

/-! ## The state after reset -/

/-- Settles O41: the reset device meets the invariant under the default capacities. -/
theorem invariantHoldsAtReset : Obligations.InvariantHoldsAtReset :=
  inv_reset (by decide)

/-- Settles O38, by the record of the reset device and the words its registers read. -/
theorem resetLeavesTheListedValues : Obligations.ResetLeavesTheListedValues := by
  refine ⟨rfl, rfl, rfl, rfl, rfl, rfl, rfl, fun x => ?slot, fun a => Memory.read_nil a, rfl, rfl,
    hostStep_rd_reg _ .status, hostStep_rd_reg _ .id, fun x => ?cap⟩
  case slot => cases x <;> exact ⟨rfl, rfl⟩
  case cap => cases x <;> exact hostStep_rd_reg State.reset (.cap _)

/-- Settles O39: the turn is the outside's, busy or not, and its input resets the device. -/
theorem resetAbandonsThePendingCommand : Obligations.ResetAbandonsThePendingCommand := fun _ _ hi =>
  ⟨fun hb => step_input_idle hb hi, fun _ hb ht => step_input_busy hb hi ht⟩

/-! ## Commands before any LEN write (R242) -/

/-- Of all a transaction can do to the x_LEN registers, only an x_LEN write changes one: its own (R34, R43). -/
theorem hostStep_slot_cases {s t : State} {x : Transaction} (h : hostStep s x = .next t) :
    t.dev.slot = s.dev.slot ∨
    ∃ y w, x = wr (BitVec.ofNat 16 (regOffset (.len y))) w ∧ ∀ z, z ≠ y → t.dev.slot z = s.dev.slot z := by
  obtain ⟨-, -, -, e | ⟨e, -⟩ | ⟨-, ⟨w, -, e⟩ | ⟨w, -, e⟩ | ⟨w, -, e⟩ | ⟨y, w, hx, e⟩ | ⟨y, o, w, e⟩⟩⟩ :=
    hostStep_dev_cases h <;> rw [e]
  · exact .inl rfl
  · exact .inl (by funext z; cases z <;> rfl)
  · exact .inl (issued_slot _ _)
  · exact .inl (Hkx.writeStatus_slot _ _)
  · exact .inl (Hkx.writeIrqEn_slot _ _)
  · exact .inr ⟨y, w, hx, fun _ => Hkx.writeLen_slot_ne _ _⟩
  · exact .inl (Hkx.writeWin_slot _ _ _ _)

theorem hostStep_present_rises {s t : State} {x : Transaction} {y : Slot} (h : hostStep s x = .next t)
    (hs : s.dev.present y = false) (ht : t.dev.present y = true) :
    ∃ w, x = wr (BitVec.ofNat 16 (regOffset (.len y))) w := by
  have hchanged : t.dev.slot y ≠ s.dev.slot y := fun heq => by
    rw [Hkx.present, heq] at ht
    cases hs.symm.trans ht
  rcases hostStep_slot_cases h with e | ⟨z, w, hx, hother⟩
  · exact absurd (congrFun e y) hchanged
  · obtain rfl : y = z := by_contra fun hne => hchanged (hother y hne)
    exact ⟨w, hx⟩

/-- Slot A is the first the guard looks at (R115, R202). -/
theorem afterGuard_of_slotA_absent (cfg : Config) {d : Hkx} (h : d.present .a = false) (r : BitVec 4 × BitVec 3) :
    afterGuard cfg d r = (1#4, 1#3) :=
  if_pos h

/-- A pending command, whichever it is, fails with TYPE(A) where slot A is absent. -/
theorem engineStep_of_slotA_absent {s : State} (hp : s.dev.pend ≠ .none) (h : s.dev.present .a = false) :
    ∃ u, engineStep s = .next u ∧ u.dev.err = 1#4 ∧ u.dev.errArg = 1#3 := by
  obtain ⟨u, hu⟩ := engineStep_next hp
  refine ⟨u, hu, Prod.mk.inj ?_⟩
  rcases engineStep_cases hu with ⟨n, -, rfl⟩ | ⟨n, -, rfl⟩
  · exact (engineDerive_result s.cfg s.dev n).trans (afterGuard_of_slotA_absent _ h _)
  · exact (engineVerify_result s.cfg s.dev n).trans (afterGuard_of_slotA_absent _ h _)

/-- DERIVE, DERIVE.DEF and VERIFY leave a command pending and every slot present or absent as it was (R113). -/
theorem exec_pends {s : State} (hb : s.dev.busy = false) {i : Instr} (hi : i ≠ .nop) :
    ∃ t, exec i s = .next t ∧ t.dev.pend ≠ .none ∧ t.dev.present = s.dev.present := by
  cases i with
  | nop => exact absurd rfl hi
  | deriveDef => exact ⟨_, exec_idle hb _, nofun, Hkx.startDerive_present _ _⟩
  | derive n => exact ⟨_, exec_idle hb _, nofun, Hkx.startDerive_present _ _⟩
  | verify n => exact ⟨_, exec_idle hb _, nofun, Hkx.startVerify_present _ _⟩

/-- Settles O40, by who makes a slot present and by the engine step of a command that finds slot A absent. -/
theorem commandsAfterResetFailWithType : Obligations.CommandsAfterResetFailWithType := by
  refine ⟨fun x => by cases x <;> rfl, fun _ _ _ _ => hostStep_present_rises,
    fun s t x h => ?engine, fun s i hb ha hi => ?command⟩
  case engine => simp only [Hkx.present, (engineStep_frame h).slot]
  case command =>
    obtain ⟨t, ht, hp, hpresent⟩ := exec_pends hb hi
    obtain ⟨u, hu, hfail⟩ := engineStep_of_slotA_absent hp ((congrFun hpresent .a).trans ha)
    exact ⟨t, u, ht, hu, hfail⟩

/-! ## Reads while a command is pending (R245) -/

@[simp] theorem readWord_nil (a : Nat) : Memory.readWord [] a = 0#32 := by
  simp only [Memory.readWord, Memory.read_nil]
  decide

/-- While a DERIVE is pending every word of OUT is zero (R38). -/
theorem readWord_out_of_derive_pending {cfg : Config} {d : Hkx} {n : Byte} (h : d.Inv cfg) (hp : d.pend = .derive n)
    {o : Nat} (h4 : o % 4 = 0) (ho : o < outSize) : d.mem.readWord (outBase + o) = 0#32 := by
  refine (Memory.readWord_congr (m' := []) fun j hj => ?_).trans (readWord_nil _)
  exact out_zero_of_derive_pending h hp ⟨by omega, by simp only [outSize] at *; omega⟩

/-- Settles O52: the fields of STATUS and the words of OUT, each zero by the invariant. -/
theorem noResultIsReadTooEarly : Obligations.NoResultIsReadTooEarly := by
  intro s hs hb
  obtain ⟨-, hdone, -, -, herr, harg, -, hcount, -⟩ := s.dev.statusWord_fields
  obtain ⟨hnoErr, hnoArg⟩ := hs.noErrorWhileBusy hb
  have hnotDone : s.dev.done = false := Bool.eq_false_iff.mpr fun h => hs.notBusyAndDone ⟨hb, h⟩
  refine ⟨_, hostStep_rd_reg s .status, herr.trans hnoErr, harg.trans hnoArg, hdone.trans hnotDone, ?derive⟩
  case derive =>
    rintro ⟨n, hp⟩
    refine ⟨hcount.trans (hs.noChunksPending n hp), fun o h4 ho => ?_⟩
    have hread := hostStep_rd_out (s := s) h4 ho
    rwa [readWord_out_of_derive_pending hs hp h4 ho] at hread

end Sys2Proof.Proofs
end
